-- ==== Sys2Proof/Word.lean ====
section
/-!
DEFINITION. Parameters and the three addressing modes. The word type is Lean's `Int` itself.

A cell, `pc`, `rb`, a raw parameter and an instruction word are mathematical integers with exact
arithmetic (00_scope.md R8); an address that reaches a cell is a natural number (R8, R40). Nothing
on this machine is a bit vector: instruction fields are decimal digits of the integer (R10).
-/

namespace Sys2Proof

/-- An addressing mode; the set is closed (00_scope.md R2, 30_encoding.md R67). -/
inductive Mode where
  /-- Mode 0: the raw value is an absolute address. -/
  | position
  /-- Mode 1: the raw value is the operand. -/
  | immediate
  /-- Mode 2: the address is the relative base plus the raw value. -/
  | relative
deriving DecidableEq, Repr

/-- A parameter: its raw cell and its addressing mode (30_encoding.md R72). -/
structure Param where
  raw : Int
  mode : Mode
deriving DecidableEq, Repr

end Sys2Proof
end

