-- ==== Sys2Proof/Config.lean ====
section
/-!
DEFINITION. What a realisation fixes (00_scope.md R7) and the one free value of the machine, the
input producer's answer (42_io.md R121).
-/

namespace Sys2Proof

/-- The two parameters of a realisation (00_scope.md R7); `none` is "unbounded". -/
structure Realisation where
  /-- `CELL_BITS`, the width of a cell, of `pc` and of `rb`. -/
  cellBits : Option Nat
  /-- `MEM_CAPACITY`, the number of addressable cells. -/
  memCapacity : Option Nat
deriving DecidableEq, Repr

/-- This hardware: the unbounded reference machine (00_scope.md R7, decisions D1 and D2). -/
def Realisation.reference : Realisation := { cellBits := none, memCapacity := none }

/-- FREE VALUE (log 4). The answer `d` of the host's input producer at its `n`-th request, any
integer (42_io.md R121, decision D12, U4). Nothing constrains it. -/
opaque Config.producerAnswer : Nat → Int

end Sys2Proof
end

