-- ==== Sys2Proof/Syntax.lean ====
section
/-!
DEFINITION. The ten instructions, one constructor per row of spec/opcode_table.json
(30_encoding.md R63, R72). A write target may carry mode 1: the decoder accepts it and the execute
stage faults on it (R75).
-/

namespace Sys2Proof

/-- A decoded instruction: the closed tagged variant of 30_encoding.md R72. -/
inductive Instr where
  /-- ADD, opcode 1 (41_arithmetic.md R110). -/
  | add (a b dst : Param)
  /-- MUL, opcode 2 (41_arithmetic.md R111). -/
  | mul (a b dst : Param)
  /-- IN, opcode 3 (42_io.md R120). -/
  | inp (dst : Param)
  /-- OUT, opcode 4 (42_io.md R122). -/
  | out (a : Param)
  /-- JT, opcode 5 (43_jumps.md R130). -/
  | jt (a b : Param)
  /-- JF, opcode 6 (43_jumps.md R131). -/
  | jf (a b : Param)
  /-- LT, opcode 7 (44_compare.md R140). -/
  | lt (a b dst : Param)
  /-- EQ, opcode 8 (44_compare.md R141). -/
  | eq (a b dst : Param)
  /-- ARB, opcode 9 (45_base.md R150). -/
  | arb (a : Param)
  /-- HLT, opcode 99 (46_halt.md R160). -/
  | hlt
deriving DecidableEq, Repr

end Sys2Proof
end

