-- ==== Sys2Proof/Decode.lean ====
section
/-!
DEFINITION. The decoder and the encoder (30_encoding.md sections 1 to 3 and rule R78).

Fields are decimal digits of the instruction word. For a positive divisor Lean's `/` and `%` on
integers are the floor and the floored remainder of 00_scope.md R9 (log 17; proved in
Laws/Decode.lean), so negative words need no case of their own (R69).
-/

namespace Sys2Proof

/-! ## Fields of the instruction word -/

/-- Decimal digit `k` of `w`; digit 0 is the units digit (00_scope.md R10). -/
def digit (w : Int) (k : Nat) : Int := w / 10 ^ k % 10

/-- The opcode field `w mod 100`, in `[0, 99]` for every integer (30_encoding.md R61). -/
def opcodeField (w : Int) : Int := w % 100

/-- The mode digit of parameter `i`, digit `i+2` of the word (30_encoding.md R62). -/
def modeDigit (w : Int) (i : Nat) : Int := digit w (i + 2)

/-! ## The opcode table -/

/-- The ten operations (30_encoding.md R63). -/
inductive Opcode where
  | add | mul | inp | out | jt | jf | lt | eq | arb | hlt
deriving DecidableEq, Repr

/-- The opcode number, column `match` of opcode_table.json (30_encoding.md R63, R77). -/
def Opcode.code : Opcode → Int
  | .add => 1
  | .mul => 2
  | .inp => 3
  | .out => 4
  | .jt => 5
  | .jf => 6
  | .lt => 7
  | .eq => 8
  | .arb => 9
  | .hlt => 99

/-- The number of parameters (30_encoding.md R63). -/
def Opcode.nparams : Opcode → Nat
  | .add => 3
  | .mul => 3
  | .inp => 1
  | .out => 1
  | .jt => 2
  | .jf => 2
  | .lt => 3
  | .eq => 3
  | .arb => 1
  | .hlt => 0

/-- The instruction's cells, one more than its parameters (30_encoding.md R64, 90_conflicts.md C1). -/
def Opcode.width (op : Opcode) : Nat := 1 + op.nparams

/-- The rows of the opcode table, in its order (30_encoding.md R77). -/
def opcodeRows : List Opcode :=
  [.add, .mul, .inp, .out, .jt, .jf, .lt, .eq, .arb, .hlt]

/-- The row whose `match` is the opcode field, if there is one (30_encoding.md R66, R77). -/
def opcodeOf (field : Int) : Option Opcode := opcodeRows.find? (fun op => op.code == field)

/-- The mode a digit names; digits 3 to 9 name none (30_encoding.md R67). -/
def modeOf (d : Int) : Option Mode :=
  if d = 0 then some .position
  else if d = 1 then some .immediate
  else if d = 2 then some .relative
  else none

/-! ## The decoder -/

/-- Why a word is no instruction, with the detail the fault record keeps (30_encoding.md R71,
60_exceptions.md R200). -/
inductive DecodeError where
  /-- The opcode field is not one of the ten (30_encoding.md R66). -/
  | badOpcode (word : Int) (opcode : Int)
  /-- The mode digit of parameter `param` is not 0, 1 or 2 (30_encoding.md R67). -/
  | badMode (word : Int) (param : Nat) (mode : Int)
deriving DecidableEq, Repr

/-- What the instruction word alone says: the operation and the mode of each of its parameters. -/
structure Head where
  op : Opcode
  modes : List Mode
deriving DecidableEq, Repr

/-- The modes of the `n` parameters from index `i` on, checked in increasing index; the first bad
one is reported (30_encoding.md R71). -/
def decodeModes (w : Int) (i : Nat) : Nat → Except DecodeError (List Mode)
  | 0 => .ok []
  | n + 1 =>
    match modeOf (modeDigit w i) with
    | none => .error (.badMode w i (modeDigit w i))
    | some m =>
      match decodeModes w (i + 1) n with
      | .error e => .error e
      | .ok ms => .ok (m :: ms)

/-- The part of `Decode` that reads the word: opcode first, then the modes of the parameters the
opcode has; higher digits are not looked at (30_encoding.md R66 to R68, R71). -/
def decodeHead (w : Int) : Except DecodeError Head :=
  match opcodeOf (opcodeField w) with
  | none => .error (.badOpcode w (opcodeField w))
  | some op =>
    match decodeModes w 0 op.nparams with
    | .error e => .error e
    | .ok ms => .ok { op := op, modes := ms }

/-- Parameter `i` of an instruction with these modes and raw cells. `decodeHead` gives exactly
`nparams` modes; a raw cell the list does not hold reads 0, as a cell never written does
(20_memory.md R41, log 18). -/
def paramAt (modes : List Mode) (raws : List Int) (i : Nat) : Param :=
  { raw := raws.getD i 0, mode := modes.getD i .position }

/-- The instruction of an operation and its parameters (30_encoding.md R72). -/
def Opcode.instr (op : Opcode) (p : Nat → Param) : Instr :=
  match op with
  | .add => .add (p 0) (p 1) (p 2)
  | .mul => .mul (p 0) (p 1) (p 2)
  | .inp => .inp (p 0)
  | .out => .out (p 0)
  | .jt => .jt (p 0) (p 1)
  | .jf => .jf (p 0) (p 1)
  | .lt => .lt (p 0) (p 1) (p 2)
  | .eq => .eq (p 0) (p 1) (p 2)
  | .arb => .arb (p 0)
  | .hlt => .hlt

/-- The instruction a head and the raw parameter cells after the word make. -/
def assemble (h : Head) (raws : List Int) : Instr := h.op.instr (paramAt h.modes raws)

/-- `Decode` on a word and the cells that follow it (30_encoding.md R71): total on any integers.
The machine's own fetch reads the cells from memory (Machine/Operands.lean). -/
def decode (w : Int) (raws : List Int) : Except DecodeError Instr :=
  match decodeHead w with
  | .error e => .error e
  | .ok h => .ok (assemble h raws)

/-- The host's probe of the decoder: the word cell holds the number `w`, the parameter cells hold 0
(log 11: a cell is an integer of no fixed width, so `nbits` fixes nothing more). -/
def decodeTableWord (_nbits w : Nat) : Option Instr :=
  match decode (w : Int) [] with
  | .ok i => some i
  | .error _ => none

/-! ## The encoder -/

/-- The digit of a mode (30_encoding.md R67, R78). -/
def Mode.code : Mode → Int
  | .position => 0
  | .immediate => 1
  | .relative => 2

/-- The operation of an instruction. -/
def Instr.opcode : Instr → Opcode
  | .add _ _ _ => .add
  | .mul _ _ _ => .mul
  | .inp _ => .inp
  | .out _ => .out
  | .jt _ _ => .jt
  | .jf _ _ => .jf
  | .lt _ _ _ => .lt
  | .eq _ _ _ => .eq
  | .arb _ => .arb
  | .hlt => .hlt

/-- The parameters of an instruction, in order (30_encoding.md R63). -/
def Instr.params : Instr → List Param
  | .add a b dst => [a, b, dst]
  | .mul a b dst => [a, b, dst]
  | .inp dst => [dst]
  | .out a => [a]
  | .jt a b => [a, b]
  | .jf a b => [a, b]
  | .lt a b dst => [a, b, dst]
  | .eq a b dst => [a, b, dst]
  | .arb a => [a]
  | .hlt => []

/-- The width in cells (30_encoding.md R64). -/
def Instr.width (i : Instr) : Nat := i.opcode.width

/-- The mode digits of the parameters, the first at decimal digit `k`. -/
def encodeModes (k : Nat) : List Mode → Int
  | [] => 0
  | m :: ms => m.code * 10 ^ k + encodeModes (k + 1) ms

/-- The canonical word of a head: `op + 100*mode_0 + 1000*mode_1 + 10000*mode_2` (30_encoding.md R78). -/
def encodeHead (h : Head) : Int := h.op.code + encodeModes 2 h.modes

/-- What an instruction's word says. -/
def Instr.head (i : Instr) : Head := { op := i.opcode, modes := i.params.map (fun p => p.mode) }

/-- The raw parameter cells of an instruction. -/
def Instr.raws (i : Instr) : List Int := i.params.map (fun p => p.raw)

/-- The cells of an instruction: its word, then its raw parameters (30_encoding.md R60, R78). -/
def encode (i : Instr) : List Int := encodeHead i.head :: i.raws

/-! ## The range of a realisation

The reference machine has no bounds; a finite realisation has both or either (00_scope.md R7,
20_memory.md R55). -/

/-- `v` fits in a cell, in `pc` and in `rb`. PRESUMED (log 7): a cell of `n` bits holds the
two's-complement range, `-2^(n-1)` to `2^(n-1) - 1`. -/
def Realisation.cellFits (r : Realisation) (v : Int) : Bool :=
  match r.cellBits with
  | none => true
  | some n => decide (-(2 ^ n) ≤ 2 * v ∧ 2 * v < 2 ^ n)

/-- `a` is the address of a cell (20_memory.md R55: an access at or above the capacity is not). -/
def Realisation.addressable (r : Realisation) (a : Nat) : Bool :=
  match r.memCapacity with
  | none => true
  | some c => decide (a < c)

end Sys2Proof
end

