-- ==== Sys2Proof/Machine/State.lean ====
section
/-!
DEFINITION. The state of one machine instance (10_state.md), the reasons a step of the MODEL can
stop without a next state, and the state right after construction.
-/

namespace Sys2Proof.Machine

/-- The run status (10_state.md R24). -/
inductive Status where
  /-- Steps execute instructions. -/
  | running
  /-- Entered by opcode 99; never left. -/
  | halted
  /-- Entered by any fault; never left. -/
  | faulted
deriving DecidableEq, Repr

/-- The machine's own faults, one constructor per row of the table of 60_exceptions.md R200 (the
last row has two, for its two details). Codes and sub-causes are in Machine/Ops.lean. -/
inductive FaultCause where
  /-- DecodeError, BadOpcode or BadMode (R201). -/
  | decode (e : DecodeError)
  /-- InvalidWriteTarget: parameter `param` is a write target in mode 1 (R202). -/
  | invalidWriteTarget (param : Nat)
  /-- InvalidAddress: a read, a write or a fetch at the negative address `addr` (R203). -/
  | invalidAddress (addr : Int)
  /-- OutOfBounds: a fetch at `pc >= L` (R204). -/
  | outOfBounds (pc : Int)
  /-- CapacityExceeded at an address at or above `MEM_CAPACITY`; finite realisations only (R205). -/
  | capacityAddr (addr : Int)
  /-- CapacityExceeded at a value outside the cell range; finite realisations only (R205). -/
  | capacityValue (value : Int)
deriving DecidableEq, Repr

/-- The fault record `{code, kind, sub, pc, detail}` (10_state.md R25, 60_exceptions.md R200).
`code`, `kind`, `sub` and `detail` are functions of the cause (log 12, Machine/Ops.lean). -/
structure FaultRecord where
  cause : FaultCause
  /-- The address of the instruction whose step faulted. -/
  pc : Int
deriving DecidableEq, Repr

/-- The cells that do not read 0, as pairs of address and value, addresses strictly rising, no value
0 (20_memory.md R44; log 1). `Memory.wf` in Machine/Ops.lean says so. -/
abbrev Memory := List (Nat × Int)

/-- The state of 10_state.md, and the parameters of the realisation (00_scope.md R7). -/
structure State where
  /-- Every cell (R30). -/
  mem : Memory
  /-- `L`, the length of the construction image: the fetch limit, constant (R29). -/
  imageLen : Nat
  /-- The program counter (R21). -/
  pc : Int
  /-- The relative base (R23). -/
  rb : Int
  /-- The input queue, front first (R26). -/
  inq : List Int
  /-- The output queue, front first (R27). -/
  outq : List Int
  /-- The run status (R24). -/
  status : Status
  /-- The fault record, none unless faulted (R25). -/
  fault : Option FaultRecord
  /-- `PRODUCER_PRESENT`, constant (R28). -/
  producerPresent : Bool
  /-- `CELL_BITS` and `MEM_CAPACITY`, constant (00_scope.md R7; log 6). -/
  realisation : Realisation
  /-- THE MODEL'S OWN FIELD (log 4): how many answers the input producer has given. -/
  draws : Nat
deriving DecidableEq, Repr

/-- Why a step of the model could have no next state because the machine stops: for no reason. Every
fault of 60_exceptions.md R200 has an entry that the spec describes (R207) and is taken as a next
state with `status = faulted` and the fault record set; a step of a halted or faulted machine does
nothing (40_dispatch_and_step.md R92). So the type is empty: nobody raises it, which is safe. -/
inductive Fault where
deriving DecidableEq, Repr

/-- Why a step of the model has no meaning for an instruction. -/
inductive Refusal where
  /-- Raised only by an arm of `exec` whose instruction has no meaning yet; safe. No arm does. -/
  | notModelled (mnemonic : String)
deriving DecidableEq, Repr

/-- The machine right after `CONSTRUCT` with every option at its default (10_state.md R34,
70_reset_and_hazards.md R230). DESIGN CHOICE (log 5): the image, which has no default, is empty. -/
def State.reset : State where
  mem := []
  imageLen := 0
  pc := 0
  rb := 0
  inq := []
  outq := []
  status := .running
  fault := none
  producerPresent := false
  realisation := Realisation.reference
  draws := 0

end Sys2Proof.Machine
end

