-- ==== Sys2Proof/Machine/Ops.lean ====
section
/-!
DEFINITION. The named operations over the state: memory, faults, queues, construction, and how a step
ends (20_memory.md, 40_dispatch_and_step.md R91 and R97, 60_exceptions.md R200 and R207,
70_reset_and_hazards.md R230).
-/

namespace Sys2Proof.Machine

/-- What the instructions answer: the host's outcome over this machine's types. -/
abbrev Result := Host.Outcome State Fault Refusal

/-! ## Memory as data -/

/-- Every key of `m` is above `a`. -/
def Memory.above (a : Nat) (m : Memory) : Bool := m.all (fun c => decide (a < c.1))

/-- The canonical form: addresses strictly rising, no cell listed that holds 0 (log 1). -/
def Memory.wf : Memory → Bool
  | [] => true
  | (a, v) :: m => v != 0 && Memory.above a m && Memory.wf m

/-- The value of cell `a`; a cell not listed reads 0 (20_memory.md R41). -/
def Memory.read : Memory → Nat → Int
  | [], _ => 0
  | (k, v) :: m, a => if k = a then v else Memory.read m a

/-- A cell in front of a memory, unless it holds 0. -/
def Memory.push (a : Nat) (v : Int) (m : Memory) : Memory := if v = 0 then m else (a, v) :: m

/-- Cell `a` set to `v`, every other cell as it was, in canonical form (20_memory.md R42). -/
def Memory.write : Memory → Nat → Int → Memory
  | [], a, v => Memory.push a v []
  | (k, x) :: m, a, v =>
    if a < k then Memory.push a v ((k, x) :: m)
    else if a = k then Memory.push a v m
    else (k, x) :: Memory.write m a v

/-- The memory that holds `image` from address `a` on and 0 everywhere else (10_state.md R34). -/
def Memory.ofImage (a : Nat) : List Int → Memory
  | [] => []
  | v :: image => Memory.push a v (Memory.ofImage (a + 1) image)

/-! ## Memory as the machine sees it -/

/-- The architectural view `mem[a]` (20_memory.md R44). -/
def State.cell (s : State) (a : Nat) : Int := s.mem.read a

/-- The state with `mem[a] = v`. -/
def State.store (s : State) (a : Nat) (v : Int) : State := { s with mem := s.mem.write a v }

/-- `MemRead(addr, 1)` (20_memory.md R41, R43; R55 for a finite realisation). -/
def memRead (s : State) (addr : Int) : Except FaultCause Int :=
  if addr < 0 then .error (.invalidAddress addr)
  else if s.realisation.addressable addr.toNat then .ok (s.cell addr.toNat)
  else .error (.capacityAddr addr)

/-- `MemWrite(addr, 1, v)` (20_memory.md R42, R43; R55 for a finite realisation, where the address
is checked before the value: log 8). -/
def memWrite (s : State) (addr : Int) (v : Int) : Except FaultCause State :=
  if addr < 0 then .error (.invalidAddress addr)
  else if !s.realisation.addressable addr.toNat then .error (.capacityAddr addr)
  else if !s.realisation.cellFits v then .error (.capacityValue v)
  else .ok (s.store addr.toNat v)

/-- The `n` cells from `addr` on, read in rising order (30_encoding.md R71). -/
def readCells (s : State) (addr : Int) : Nat → Except FaultCause (List Int)
  | 0 => .ok []
  | n + 1 =>
    match memRead s addr with
    | .error c => .error c
    | .ok v =>
      match readCells s (addr + 1) n with
      | .error c => .error c
      | .ok vs => .ok (v :: vs)

/-! ## Registers and queues -/

/-- `pc <- v`. -/
def State.setPc (s : State) (v : Int) : State := { s with pc := v }

/-- `rb <- v`. -/
def State.setRb (s : State) (v : Int) : State := { s with rb := v }

/-- The front of `inq` removed, `rest` left (42_io.md R121). -/
def State.setInq (s : State) (rest : List Int) : State := { s with inq := rest }

/-- One more answer taken from the producer (log 4). -/
def State.drawn (s : State) : State := { s with draws := s.draws + 1 }

/-- `emit v`: append to the back of the output queue (00_scope.md R11, 10_state.md R27). -/
def State.emit (s : State) (v : Int) : State := { s with outq := s.outq ++ [v] }

/-- The front of `outq` removed, `rest` left (47_run_control.md R174). -/
def State.setOutq (s : State) (rest : List Int) : State := { s with outq := rest }

/-- `status <- Halted` (46_halt.md R160). -/
def State.halt (s : State) : State := { s with status := .halted }

/-- `PUSH_INPUT(v)`: append to the back of the input queue (47_run_control.md R176). -/
def State.pushInput (s : State) (v : Int) : State := { s with inq := s.inq ++ [v] }

/-! ## Taking a fault -/

/-- FAULT ENTRY, the one operation that takes a fault (60_exceptions.md R207): the record keeps the
cause and the `pc` of this step; nothing else changes. There is no return from it (R210). -/
def State.takeFault (s : State) (c : FaultCause) : State :=
  { s with status := .faulted, fault := some { cause := c, pc := s.pc } }

/-- The kinds of the fault table (60_exceptions.md R200). -/
inductive FaultKind where
  | decodeError | invalidWriteTarget | invalidAddress | outOfBounds | capacityExceeded
deriving DecidableEq, Repr

/-- The sub-causes of DecodeError (60_exceptions.md R200, 90_conflicts.md C3). -/
inductive FaultSub where
  | badOpcode | badMode
deriving DecidableEq, Repr

/-- The `detail` column of the fault table (60_exceptions.md R200). -/
inductive FaultDetail where
  | opcode (word : Int) (opcode : Int)
  | mode (word : Int) (param : Nat) (mode : Int)
  | param (param : Nat)
  | addr (addr : Int)
  | pc (pc : Int)
  | value (value : Int)
deriving DecidableEq, Repr

/-- Column `kind`. -/
def FaultRecord.kind (r : FaultRecord) : FaultKind :=
  match r.cause with
  | .decode _ => .decodeError
  | .invalidWriteTarget _ => .invalidWriteTarget
  | .invalidAddress _ => .invalidAddress
  | .outOfBounds _ => .outOfBounds
  | .capacityAddr _ => .capacityExceeded
  | .capacityValue _ => .capacityExceeded

/-- Column `code`. -/
def FaultRecord.code (r : FaultRecord) : Nat :=
  match r.kind with
  | .decodeError => 1
  | .invalidWriteTarget => 2
  | .invalidAddress => 3
  | .outOfBounds => 4
  | .capacityExceeded => 5

/-- Column `sub-cause`; only DecodeError has one. -/
def FaultRecord.sub (r : FaultRecord) : Option FaultSub :=
  match r.cause with
  | .decode (.badOpcode _ _) => some .badOpcode
  | .decode (.badMode _ _ _) => some .badMode
  | .invalidWriteTarget _ => none
  | .invalidAddress _ => none
  | .outOfBounds _ => none
  | .capacityAddr _ => none
  | .capacityValue _ => none

/-- The number of a sub-cause. -/
def FaultSub.code : FaultSub → Nat
  | .badOpcode => 1
  | .badMode => 2

/-- Column `detail recorded`. -/
def FaultRecord.detail (r : FaultRecord) : FaultDetail :=
  match r.cause with
  | .decode (.badOpcode w op) => .opcode w op
  | .decode (.badMode w i m) => .mode w i m
  | .invalidWriteTarget i => .param i
  | .invalidAddress a => .addr a
  | .outOfBounds p => .pc p
  | .capacityAddr a => .addr a
  | .capacityValue v => .value v

/-! ## How a step ends -/

/-- What an execute rule returns (40_dispatch_and_step.md R91, R96): the pending state with the next
program counter and whether an output was emitted, or halted, or a hold, or a fault. -/
inductive Stage where
  | next (npc : Int) (out : Bool) (t : State)
  | halted (t : State)
  | hold
  | fault (c : FaultCause)
deriving DecidableEq, Repr

/-- An execute rule whose reads and writes may raise a fault. -/
def Stage.ofExcept : Except FaultCause Stage → Stage
  | .ok r => r
  | .error c => .fault c

/-- The outcomes of a step (00_scope.md R12). `fault` carries the fault register's contents. -/
inductive StepOutcome where
  | stepped (out : Bool)
  | halt
  | held
  | fault (rec : Option FaultRecord)
deriving DecidableEq, Repr

/-- A faulting step: the recorded fault and the state that holds it (60_exceptions.md R207). -/
def faultStep (s : State) (c : FaultCause) : StepOutcome × State :=
  (.fault (s.takeFault c).fault, s.takeFault c)

/-- The commit of a step that started in `s` (40_dispatch_and_step.md R91, R97, R99): all of the
pending state, or nothing of it. A next program counter outside a finite realisation's range is
CapacityExceeded (log 8). -/
def settle (s : State) : Stage → StepOutcome × State
  | .next npc out t =>
    if s.realisation.cellFits npc then (.stepped out, t.setPc npc)
    else faultStep s (.capacityValue npc)
  | .halted t => (.halt, t.halt)
  | .hold => (.held, s)
  | .fault c => faultStep s c

/-- The next state of a step that started in `s`. -/
def commit (s : State) (r : Stage) : Result := .next (settle s r).2

/-! ## Construction -/

/-- `CONSTRUCT(image, pc0, inputs0, rb0, producer?)` (70_reset_and_hazards.md R230): the only reset.
Its arguments are not checked (R231). -/
def construct (r : Realisation) (image : List Int) (pc0 : Int) (inputs0 : List Int) (rb0 : Int)
    (producer : Bool) : State where
  mem := Memory.ofImage 0 image
  imageLen := image.length
  pc := pc0
  rb := rb0
  inq := inputs0
  outq := []
  status := .running
  fault := none
  producerPresent := producer
  realisation := r
  draws := 0

/-- The word `w` in the cell the next step fetches, 0 in the three cells after it, and all that the
fetch needs: `pc` in `[0, L)`, status Running (log 11). -/
def State.placeWord (s : State) (w : Int) : State :=
  let a := s.pc.toNat
  { s with
    mem := (((s.mem.write a w).write (a + 1) 0).write (a + 2) 0).write (a + 3) 0
    imageLen := max s.imageLen (a + 1)
    pc := (a : Int)
    status := .running
    fault := none }

end Sys2Proof.Machine
end

