-- ==== Sys2Proof/Machine/Operands.lean ====
section
/-!
DEFINITION. The fetch and decode stages, the addressing-mode resolver and the input acquisition
(40_dispatch_and_step.md R93 and R94, 30_encoding.md R71, R73 and R74, 42_io.md R121).
-/

namespace Sys2Proof.Machine

/-! ## The addressing-mode resolver -/

/-- The address a parameter names: mode 0 the raw value, mode 2 the relative base plus the raw
value; mode 1 names none (30_encoding.md R73, R74). -/
def effectiveAddr (s : State) (p : Param) : Option Int :=
  match p.mode with
  | .position => some p.raw
  | .immediate => none
  | .relative => some (s.rb + p.raw)

/-- `ReadParam(p)` (30_encoding.md R73): an immediate is its raw value, whole (R76). -/
def readParam (s : State) (p : Param) : Except FaultCause Int :=
  match effectiveAddr s p with
  | none => .ok p.raw
  | some addr => memRead s addr

/-- `WriteAddr(p)` of the write target with parameter index `i` (30_encoding.md R74, R75). The sign
of the address is checked by the write. -/
def writeAddr (s : State) (i : Nat) (p : Param) : Except FaultCause Int :=
  match effectiveAddr s p with
  | none => .error (.invalidWriteTarget i)
  | some addr => .ok addr

/-! ## Input acquisition -/

/-- What `AcquireInput` gives: a value with the pending state, or a hold. -/
inductive Acquired where
  | value (v : Int) (t : State)
  | hold
deriving DecidableEq, Repr

/-- `AcquireInput(t, d)` (42_io.md R121): the front of the queue, else the producer's answer `d`,
which does not pass through the queue, else a hold. -/
def acquireInput (d : Int) (t : State) : Acquired :=
  match t.inq with
  | v :: rest => .value v (t.setInq rest)
  | [] => if t.producerPresent then .value d t.drawn else .hold

/-! ## Fetch and decode -/

/-- `Decode(pc)` (30_encoding.md R71): word, opcode, modes, then the raw parameter cells. -/
def decodeAt (s : State) : Except FaultCause Instr :=
  match memRead s s.pc with
  | .error c => .error c
  | .ok w =>
    match decodeHead w with
    | .error e => .error (.decode e)
    | .ok h =>
      match readCells s (s.pc + 1) h.op.nparams with
      | .error c => .error c
      | .ok raws => .ok (assemble h raws)

/-- The fetch checks on `pc`, then `Decode` (40_dispatch_and_step.md R93, R94). The bound is the
construction image length `L`, for the instruction word only. -/
def fetch (s : State) : Except FaultCause Instr :=
  if s.pc < 0 then .error (.invalidAddress s.pc)
  else if (s.imageLen : Int) ≤ s.pc then .error (.outOfBounds s.pc)
  else decodeAt s

end Sys2Proof.Machine
end

