-- ==== Sys2Proof/Machine/Arithmetic.lean ====
section
/-!
DEFINITION. The execute stage every three-parameter instruction shares, and the arithmetic
instructions ADD and MUL (41_arithmetic.md R110, R111).
-/

namespace Sys2Proof.Machine

/-- `mem[dst] <- f (a, b)`: read `a`, read `b`, resolve the target, write, width 4. The first fault
in that order is the one reported (40_dispatch_and_step.md R100, R102). -/
def binaryStage (f : Int → Int → Int) (a b dst : Param) (s : State) : Stage :=
  Stage.ofExcept do
    let va ← readParam s a
    let vb ← readParam s b
    let addr ← writeAddr s 2 dst
    let t ← memWrite s addr (f va vb)
    pure (.next (s.pc + 4) false t)

/-- The execute stage of ADD (41_arithmetic.md R110): the exact sum. -/
def addStage (a b dst : Param) (s : State) : Stage := binaryStage (fun x y => x + y) a b dst s

/-- ADD, opcode 1 (41_arithmetic.md R110). -/
def execAdd (a b dst : Param) (s : State) : Result := commit s (addStage a b dst s)

/-- The execute stage of MUL (41_arithmetic.md R111): the exact product. -/
def mulStage (a b dst : Param) (s : State) : Stage := binaryStage (fun x y => x * y) a b dst s

/-- MUL, opcode 2 (41_arithmetic.md R111). -/
def execMul (a b dst : Param) (s : State) : Result := commit s (mulStage a b dst s)

end Sys2Proof.Machine
end

