-- ==== Sys2Proof/Machine/Base.lean ====
section
/-!
DEFINITION. The relative-base instruction ARB (45_base.md R150).
-/

namespace Sys2Proof.Machine

/-- The execute stage of ARB (45_base.md R150): the operand is read under the old `rb`. A finite
realisation raises CapacityExceeded where the new `rb` leaves the range. -/
def arbStage (a : Param) (s : State) : Stage :=
  match readParam s a with
  | .error c => .fault c
  | .ok va =>
    if s.realisation.cellFits (s.rb + va) then .next (s.pc + 2) false (s.setRb (s.rb + va))
    else .fault (.capacityValue (s.rb + va))

/-- ARB, opcode 9 (45_base.md R150). -/
def execArb (a : Param) (s : State) : Result := commit s (arbStage a s)

end Sys2Proof.Machine
end

