-- ==== Sys2Proof/Machine/Flags.lean ====
section
/-!
DEFINITION. The machine has no flags or condition codes (10_state.md R31). What stands in their
place: the cell value a comparison writes, and the test a conditional jump makes on a parameter.
-/

namespace Sys2Proof.Machine

/-- The result of a comparison, exactly 1 or 0 (44_compare.md R140, R141). -/
def truthCell (b : Bool) : Int := if b then 1 else 0

/-- A condition holds when it is not 0, negative values included (43_jumps.md R130, R131). -/
def condHolds (v : Int) : Bool := v != 0

end Sys2Proof.Machine
end

