-- ==== Sys2Proof/Machine/Compare.lean ====
section
/-!
DEFINITION. The comparisons LT and EQ (44_compare.md R140, R141).
-/

namespace Sys2Proof.Machine

/-- The execute stage of LT (44_compare.md R140): a signed comparison. -/
def ltStage (a b dst : Param) (s : State) : Stage :=
  binaryStage (fun x y => truthCell (decide (x < y))) a b dst s

/-- LT, opcode 7 (44_compare.md R140). -/
def execLt (a b dst : Param) (s : State) : Result := commit s (ltStage a b dst s)

/-- The execute stage of EQ (44_compare.md R141). -/
def eqStage (a b dst : Param) (s : State) : Stage :=
  binaryStage (fun x y => truthCell (decide (x = y))) a b dst s

/-- EQ, opcode 8 (44_compare.md R141). -/
def execEq (a b dst : Param) (s : State) : Result := commit s (eqStage a b dst s)

end Sys2Proof.Machine
end

