-- ==== Sys2Proof/Machine/Halt.lean ====
section
/-!
DEFINITION. HLT (46_halt.md R160).
-/

namespace Sys2Proof.Machine

/-- The execute stage of HLT (46_halt.md R160): nothing but the status changes. -/
def hltStage (s : State) : Stage := .halted s

/-- HLT, opcode 99 (46_halt.md R160). -/
def execHlt (s : State) : Result := commit s (hltStage s)

end Sys2Proof.Machine
end

