-- ==== Sys2Proof/Machine/InputOutput.lean ====
section
/-!
DEFINITION. The input and output instructions IN and OUT (42_io.md R120 to R122).
-/

namespace Sys2Proof.Machine

/-- The execute stage of IN under the producer answer `d` (42_io.md R120): the target is checked
before any input is taken, so a faulting Input pops nothing and asks no producer. -/
def inpStage (d : Int) (dst : Param) (s : State) : Stage :=
  match writeAddr s 0 dst with
  | .error c => .fault c
  | .ok addr =>
    if addr < 0 then .fault (.invalidAddress addr)
    else
      match acquireInput d s with
      | .hold => .hold
      | .value v t =>
        match memWrite t addr v with
        | .error c => .fault c
        | .ok u => .next (s.pc + 2) false u

/-- IN, opcode 3 (42_io.md R120). The producer's answer is the free value of log 4. -/
def execInp (dst : Param) (s : State) : Result :=
  commit s (inpStage (Config.producerAnswer s.draws) dst s)

/-- The execute stage of OUT (42_io.md R122). -/
def outStage (a : Param) (s : State) : Stage :=
  match readParam s a with
  | .error c => .fault c
  | .ok va => .next (s.pc + 2) true (s.emit va)

/-- OUT, opcode 4 (42_io.md R122). -/
def execOut (a : Param) (s : State) : Result := commit s (outStage a s)

end Sys2Proof.Machine
end

