-- ==== Sys2Proof/Machine/Jumps.lean ====
section
/-!
DEFINITION. The conditional jumps JT and JF (43_jumps.md R130 to R132).
-/

namespace Sys2Proof.Machine

/-- A jump that is taken when the condition's truth is `sense`: the target is read only then, and may
be any integer (43_jumps.md R132). Width 3 (90_conflicts.md C1). -/
def jumpStage (sense : Bool) (a b : Param) (s : State) : Stage :=
  match readParam s a with
  | .error c => .fault c
  | .ok va =>
    if condHolds va = sense then
      match readParam s b with
      | .error c => .fault c
      | .ok vb => .next vb false s
    else .next (s.pc + 3) false s

/-- The execute stage of JT (43_jumps.md R130): taken when `a != 0`. -/
def jtStage (a b : Param) (s : State) : Stage := jumpStage true a b s

/-- JT, opcode 5 (43_jumps.md R130). -/
def execJt (a b : Param) (s : State) : Result := commit s (jtStage a b s)

/-- The execute stage of JF (43_jumps.md R131): taken when `a == 0`. -/
def jfStage (a b : Param) (s : State) : Stage := jumpStage false a b s

/-- JF, opcode 6 (43_jumps.md R131). -/
def execJf (a b : Param) (s : State) : Result := commit s (jfStage a b s)

end Sys2Proof.Machine
end

