-- ==== Sys2Proof/Machine/Step.lean ====
section
/-!
DEFINITION. One step of the machine (40_dispatch_and_step.md R91 to R95): status gate, fetch and
decode, execute and commit.
-/

namespace Sys2Proof.Machine

/-- One step. A halted or faulted machine does nothing (R92); a fetch or decode fault is taken
(R93, R94, 60_exceptions.md R207); otherwise the decoded instruction is executed (R95). Which of the
outcomes of 00_scope.md R12 the step reports is `stepWith` of Machine/HostPort.lean (log 3). -/
def step (s : State) : Host.Outcome State Fault Refusal :=
  match s.status with
  | .running =>
    match fetch s with
    | .error c => commit s (.fault c)
    | .ok i => exec i s
  | .halted => .next s
  | .faulted => .next s

/-- `s` with the word `w`, and parameter cells of 0, where the next step fetches (log 11). -/
def State.withFetchWord (s : State) (_nbits w : Nat) : State := s.placeWord (w : Int)

end Sys2Proof.Machine
end

