-- ==== Sys2Proof/Machine/HostPort.lean ====
section
/-!
DEFINITION. The step with its outcome, as 40_dispatch_and_step.md R91 writes it, and the host command
port (47_run_control.md): the nine commands, what a pending run command does, and the end of a run.

The pending run command belongs to the port and is no state of the machine (10_state.md R33, log 10).
-/

namespace Sys2Proof.Machine

/-! ## The step function with its outcome -/

/-- `Execute(I, t, d)`: the execute rule of the instruction's family under the producer answer `d`
(40_dispatch_and_step.md R91, R95). -/
def execute (d : Int) (i : Instr) (s : State) : Stage :=
  match i with
  | .add a b dst => addStage a b dst s
  | .mul a b dst => mulStage a b dst s
  | .inp dst => inpStage d dst s
  | .out a => outStage a s
  | .jt a b => jtStage a b s
  | .jf a b => jfStage a b s
  | .lt a b dst => ltStage a b dst s
  | .eq a b dst => eqStage a b dst s
  | .arb a => arbStage a s
  | .hlt => hltStage s

/-- `Step(s, d)` (40_dispatch_and_step.md R91): the outcome and the next state, for any producer
answer `d`. -/
def stepWith (d : Int) (s : State) : StepOutcome × State :=
  match s.status with
  | .faulted => (.fault s.fault, s)
  | .halted => (.halt, s)
  | .running =>
    match fetch s with
    | .error c => settle s (.fault c)
    | .ok i => settle s (execute d i s)

/-! ## Commands, replies and the port -/

/-- The host commands (47_run_control.md R170). -/
inductive Command where
  | construct (image : List Int) (pc0 : Int) (inputs0 : List Int) (rb0 : Int) (producer : Bool)
  | step (d : Int)
  | run
  | runUntilOutput
  | runN (n : Nat)
  | pushInput (v : Int)
  | memRead (a : Int)
  | memWrite (a : Int) (v : Int)
  | readState
deriving DecidableEq, Repr

/-- The responses (47_run_control.md R170). -/
inductive Reply where
  | ok
  | outcome (o : StepOutcome)
  | done (outputs : List Int)
  | value (v : Int)
  | noValue
  | values (vs : List Int)
  | fault (rec : Option FaultRecord)
  /-- A host access refused, with the machine unchanged (R177, R178; R55 by log 9). -/
  | refused (c : FaultCause)
  | state (pc rb : Int) (status : Status) (fault : Option FaultRecord)
deriving DecidableEq, Repr

/-- A run command that has been accepted and not yet answered (47_run_control.md R173 to R175). -/
inductive Pending where
  | run
  | untilOutput
  /-- `n` outputs still wanted, `vs` collected so far. -/
  | untilN (n : Nat) (vs : List Int)
deriving DecidableEq, Repr

/-- A machine behind its command port. -/
structure Port where
  machine : State
  pending : Option Pending
deriving DecidableEq, Repr

/-! ## RUN_UNTIL_OUTPUT's three tests -/

/-- What the three tests at the head of RUN_UNTIL_OUTPUT's loop say (47_run_control.md R174). -/
inductive Poll where
  | fault (rec : Option FaultRecord)
  | value (v : Int) (t : State)
  | noValue
  | again
deriving DecidableEq, Repr

/-- The tests, in the order faulted, output queued (its front is popped), halted (decision D14). -/
def poll (s : State) : Poll :=
  match s.status with
  | .faulted => .fault s.fault
  | .halted =>
    match s.outq with
    | v :: rest => .value v (s.setOutq rest)
    | [] => .noValue
  | .running =>
    match s.outq with
    | v :: rest => .value v (s.setOutq rest)
    | [] => .again

/-! ## A pending command -/

/-- One iteration of the loop of the pending command, with the reply when it completes
(47_run_control.md R173 to R175). A held step changes nothing and leaves the command pending (R180).
DESIGN CHOICE (log 19): RUN_N(0) on a faulted machine answers Values([]), as R175 and D15 say of
`n = 0`, and not the recorded fault, which R183 and D16 say of every run command. -/
def Port.advance (d : Int) (p : Port) : Port × Option Reply :=
  match p.pending with
  | none => (p, none)
  | some .run =>
    match stepWith d p.machine with
    | (.stepped _, t) => ({ p with machine := t }, none)
    | (.held, t) => ({ p with machine := t }, none)
    | (.halt, t) => ({ machine := t, pending := none }, some (.done t.outq))
    | (.fault rec, t) => ({ machine := t, pending := none }, some (.fault rec))
  | some .untilOutput =>
    match poll p.machine with
    | .fault rec => ({ p with pending := none }, some (.fault rec))
    | .value v t => ({ machine := t, pending := none }, some (.value v))
    | .noValue => ({ p with pending := none }, some .noValue)
    | .again => ({ p with machine := (stepWith d p.machine).2 }, none)
  | some (.untilN 0 vs) => ({ p with pending := none }, some (.values vs))
  | some (.untilN (n + 1) vs) =>
    match poll p.machine with
    | .fault rec => ({ p with pending := none }, some (.fault rec))
    | .value v t => ({ machine := t, pending := some (.untilN n (vs ++ [v])) }, none)
    | .noValue => ({ p with pending := none }, some .noValue)
    | .again => ({ p with machine := (stepWith d p.machine).2 }, none)

/-- The next step of the machine would be held on input; no producer answer can change that
(40_dispatch_and_step.md R99). -/
def State.waitsForInput (s : State) : Bool := (stepWith 0 s).1 == .held

/-- The pending command is held on input (47_run_control.md R180). -/
def Port.held (p : Port) : Bool :=
  match p.pending with
  | none => false
  | some .run => p.machine.waitsForInput
  | some .untilOutput => poll p.machine == .again && p.machine.waitsForInput
  | some (.untilN 0 _) => false
  | some (.untilN (_ + 1) _) => poll p.machine == .again && p.machine.waitsForInput

/-! ## Taking a command -/

/-- A command taken by an idle port (47_run_control.md R170 to R179): the port after it, and the
reply, none for a run command, which is now pending. CONSTRUCT makes a new instance of the same
realisation. -/
def Port.take (p : Port) : Command → Port × Option Reply
  | .construct image pc0 inputs0 rb0 producer =>
    ({ p with machine := construct p.machine.realisation image pc0 inputs0 rb0 producer }, some .ok)
  | .step d => ({ p with machine := (stepWith d p.machine).2 }, some (.outcome (stepWith d p.machine).1))
  | .run => ({ p with pending := some .run }, none)
  | .runUntilOutput => ({ p with pending := some .untilOutput }, none)
  | .runN n => ({ p with pending := some (.untilN n []) }, none)
  | .pushInput v => ({ p with machine := p.machine.pushInput v }, some .ok)
  | .memRead a =>
    match Sys2Proof.Machine.memRead p.machine a with
    | .ok v => (p, some (.value v))
    | .error c => (p, some (.refused c))
  | .memWrite a v =>
    match Sys2Proof.Machine.memWrite p.machine a v with
    | .ok t => ({ p with machine := t }, some .ok)
    | .error c => (p, some (.refused c))
  | .readState =>
    (p, some (.state p.machine.pc p.machine.rb p.machine.status p.machine.fault))

/-- The port's answer to a command, `none` when the port does not accept it now: one command at a
time, and while a run command is held on input PUSH_INPUT and nothing else (47_run_control.md R171,
R180). -/
def Port.accept (p : Port) (c : Command) : Option (Port × Option Reply) :=
  match p.pending with
  | none => some (p.take c)
  | some _ =>
    match c with
    | .pushInput v =>
      if p.held then some ({ p with machine := p.machine.pushInput v }, some .ok) else none
    | _ => none

/-! ## Running a pending command to its reply -/

/-- One iteration under the producer answers of log 4. -/
def Port.tick (p : Port) : Port × Option Reply :=
  p.advance (Config.producerAnswer p.machine.draws)

/-- A host that pushes the next value of `feed` when the command is held, and only then: the port and
the values left, `none` when the command is held with nothing left to push (47_run_control.md R180). -/
def Port.feed (p : Port) (feed : List Int) : Option (Port × List Int) :=
  if p.held then
    match feed with
    | [] => none
    | v :: rest => some ({ p with machine := p.machine.pushInput v }, rest)
  else some (p, feed)

/-- A pending command run to its reply within `fuel` iterations by the host of `Port.feed`: the reply,
the port, and the values not pushed. `none` when the fuel or the values run out first. -/
def Port.serve : Nat → List Int → Port → Option (Reply × Port × List Int)
  | 0, _, _ => none
  | fuel + 1, feed, p =>
    match p.tick with
    | (q, some r) => some (r, q, feed)
    | (q, none) =>
      match q.feed feed with
      | none => none
      | some (q', rest) => Port.serve fuel rest q'

/-- RUN_UNTIL_OUTPUT issued until it answers NoValue, at most `calls` times with `fuel` iterations
each: the values in order, the machine, and the values not pushed (47_run_control.md R184). -/
def collectOutputs : Nat → Nat → List Int → State → Option (List Int × State × List Int)
  | 0, _, _, _ => none
  | calls + 1, fuel, feed, s =>
    match Port.serve fuel feed { machine := s, pending := some .untilOutput } with
    | some (.value v, q, rest) =>
      match collectOutputs calls fuel rest q.machine with
      | some (vs, t, left) => some (v :: vs, t, left)
      | none => none
    | some (.noValue, q, rest) => some ([], q.machine, rest)
    | _ => none

/-! ## The end of a run -/

/-- A run has ended when the machine is halted or faulted (47_run_control.md R182). -/
def State.ended (s : State) : Bool := s.status != .running

/-- A run ended well when the machine is halted with no fault recorded (47_run_control.md R182). -/
def State.endedWell (s : State) : Bool := s.status == .halted && s.fault == none

end Sys2Proof.Machine
end

