-- ==== Sys2Proof/WellFormed.lean ====
section
/-!
DEFINITION. Well-formed instructions: the checks a word of the opcode table's "legal" column and a
realisation's cells pass. The decoder accepts more than these (a write target in mode 1 decodes and
faults at execute, 30_encoding.md R75), so no meaning assumes them.
-/

namespace Sys2Proof

/-- The write target of an instruction and its parameter index (30_encoding.md R63). -/
def Instr.target : Instr → Option (Nat × Param)
  | .add _ _ dst => some (2, dst)
  | .mul _ _ dst => some (2, dst)
  | .inp dst => some (0, dst)
  | .out _ => none
  | .jt _ _ => none
  | .jf _ _ => none
  | .lt _ _ dst => some (2, dst)
  | .eq _ _ dst => some (2, dst)
  | .arb _ => none
  | .hlt => none

/-- A write target is in mode 0 or 2: the table's "legal" modes (30_encoding.md R74). -/
def Instr.targetLegal (i : Instr) : Bool :=
  match i.target with
  | none => true
  | some (_, dst) => dst.mode != .immediate

/-- Every cell of the encoding fits a cell of the realisation (00_scope.md R7). -/
def Instr.cellsFit (r : Realisation) (i : Instr) : Bool := (encode i).all r.cellFits

/-- An instruction that a program of this realisation may hold and execute. -/
def Instr.wellFormed (r : Realisation) (i : Instr) : Bool := i.targetLegal && i.cellsFit r

end Sys2Proof
end

