-- ==== Sys2Proof/Safety.lean ====
section
/-!
DEFINITION. The terms claims use: the machine's invariants, what it means that an instruction raises a
fault, and the shapes of an instruction's effect with everything else unchanged.
-/

namespace Sys2Proof.Machine

/-! ## Invariants -/

/-- The memory is in canonical form (log 1). -/
def State.memCanonical (s : State) : Prop := s.mem.wf = true

/-- The fault record is there exactly when the machine is faulted, and its `pc` is the architectural
`pc`, which still names the faulting instruction (10_state.md R25, 60_exceptions.md R207). -/
def State.faultConsistent (s : State) : Prop :=
  match s.fault with
  | none => s.status ≠ .faulted
  | some rec => s.status = .faulted ∧ rec.pc = s.pc

/-- Everything the machine holds is in the range of its realisation: no cell at or above
`MEM_CAPACITY` has been written, and every cell, `pc` and `rb` fit (20_memory.md R55). Always true of
the memory part on the reference machine. -/
def State.inRange (s : State) : Prop :=
  (∀ c ∈ s.mem, s.realisation.addressable c.1 = true ∧ s.realisation.cellFits c.2 = true) ∧
    s.realisation.cellFits s.pc = true ∧ s.realisation.cellFits s.rb = true

/-- The invariant of every instance. -/
structure State.Inv (s : State) : Prop where
  canonical : s.memCanonical
  faults : s.faultConsistent
  range : s.inRange

/-! ## Outcomes of an instruction -/

/-- The instruction raises the fault `c`: the machine is faulted and the record names the cause and
this instruction. Nothing is said of the rest of the state, which a claim is not to read after a
fault (U8). -/
def Raises (r : Result) (s : State) (c : FaultCause) : Prop :=
  ∃ t, r = .next t ∧ t.status = .faulted ∧ t.fault = some { cause := c, pc := s.pc }

/-- Cell `a` of `t` holds `v` and every other cell reads as in `s`. -/
def StoresOnly (s t : State) (a : Nat) (v : Int) : Prop :=
  t.cell a = v ∧ ∀ b, b ≠ a → t.cell b = s.cell b

/-- The instruction completes by storing `v` at the resolved address and advancing `pc` by its width;
nothing else changes. -/
def StoreCompletes (r : Result) (s : State) (width addr : Int) (v : Int) : Prop :=
  ∃ t, r = .next t ∧ t = { s with mem := t.mem, pc := s.pc + width } ∧ StoresOnly s t addr.toNat v

/-- What the rule of a three-parameter instruction says (41_arithmetic.md R110 and the rules that
follow it): its encoding, its completion with everything it leaves unchanged, and its faults in the
order of the rule. -/
structure MeansBinary (mk : Param → Param → Param → Instr) (code : Int)
    (f : Int → Int → Int) : Prop where
  encoding : ∀ a b dst rest,
    decode (code + 100 * a.mode.code + 1000 * b.mode.code + 10000 * dst.mode.code)
      (a.raw :: b.raw :: dst.raw :: rest) = .ok (mk a b dst)
  completes : ∀ a b dst s va vb addr, s.memCanonical →
    readParam s a = .ok va → readParam s b = .ok vb → writeAddr s 2 dst = .ok addr → 0 ≤ addr →
    s.realisation.addressable addr.toNat = true → s.realisation.cellFits (f va vb) = true →
    s.realisation.cellFits (s.pc + 4) = true →
    StoreCompletes (exec (mk a b dst) s) s 4 addr (f va vb)
  faultA : ∀ a b dst s c, readParam s a = .error c → Raises (exec (mk a b dst) s) s c
  faultB : ∀ a b dst s va c, readParam s a = .ok va → readParam s b = .error c →
    Raises (exec (mk a b dst) s) s c
  faultTarget : ∀ a b dst s va vb, readParam s a = .ok va → readParam s b = .ok vb →
    dst.mode = .immediate → Raises (exec (mk a b dst) s) s (.invalidWriteTarget 2)
  faultNegative : ∀ a b dst s va vb addr, readParam s a = .ok va → readParam s b = .ok vb →
    writeAddr s 2 dst = .ok addr → addr < 0 →
    Raises (exec (mk a b dst) s) s (.invalidAddress addr)
  faultRange : ∀ a b dst s va vb addr, readParam s a = .ok va → readParam s b = .ok vb →
    writeAddr s 2 dst = .ok addr → 0 ≤ addr → s.realisation.addressable addr.toNat = true →
    s.realisation.cellFits (f va vb) = false →
    Raises (exec (mk a b dst) s) s (.capacityValue (f va vb))

/-- What the rule of a conditional jump says (43_jumps.md R130, R131): `taken` is its test of the
condition. -/
structure MeansJump (mk : Param → Param → Instr) (code : Int) (taken : Int → Prop) : Prop where
  encoding : ∀ a b rest,
    decode (code + 100 * a.mode.code + 1000 * b.mode.code) (a.raw :: b.raw :: rest) = .ok (mk a b)
  jumps : ∀ a b s va vb, readParam s a = .ok va → taken va → readParam s b = .ok vb →
    s.realisation.cellFits vb = true → exec (mk a b) s = .next { s with pc := vb }
  falls : ∀ a b s va, readParam s a = .ok va → ¬ taken va →
    s.realisation.cellFits (s.pc + 3) = true → exec (mk a b) s = .next { s with pc := s.pc + 3 }
  faultA : ∀ a b s c, readParam s a = .error c → Raises (exec (mk a b) s) s c
  faultB : ∀ a b s va c, readParam s a = .ok va → taken va → readParam s b = .error c →
    Raises (exec (mk a b) s) s c

/-- The cell an instruction stores to when it stores: its write target's resolved address, computed as
the meaning computes it; `none` for an instruction without a write target or a target that does not
resolve. -/
def storeAddr (i : Instr) (s : State) : Option Nat :=
  match i.target with
  | none => none
  | some (k, dst) =>
    match writeAddr s k dst with
    | .ok addr => some addr.toNat
    | .error _ => none

/-- The result of a three-parameter instruction on its operands, when both can be read. -/
def binaryResult (f : Int → Int → Int) (a b : Param) (s : State) : Option Int :=
  match readParam s a with
  | .error _ => none
  | .ok va =>
    match readParam s b with
    | .error _ => none
    | .ok vb => some (f va vb)

/-- The value an instruction stores when it stores, under the producer answer `d`: the result column of
41_arithmetic.md R110 and R111 and 44_compare.md R140 and R141, the input of 42_io.md R121; `none` for
an instruction that stores nothing, whose operands cannot be read, or that holds. -/
def storeValue (d : Int) (i : Instr) (s : State) : Option Int :=
  match i with
  | .add a b _ => binaryResult (fun x y => x + y) a b s
  | .mul a b _ => binaryResult (fun x y => x * y) a b s
  | .lt a b _ => binaryResult (fun x y => if x < y then 1 else 0) a b s
  | .eq a b _ => binaryResult (fun x y => if x = y then 1 else 0) a b s
  | .inp _ =>
    match s.inq with
    | v :: _ => some v
    | [] => if s.producerPresent then some d else none
  | .out _ => none
  | .jt _ _ => none
  | .jf _ _ => none
  | .arb _ => none
  | .hlt => none

/-- A fetched word is canonical when it is not negative and has no digit above its last mode digit,
the premises U12 and U13 ask a claim about programs to carry. -/
def CanonicalWord (w : Int) (h : Head) : Prop := 0 ≤ w ∧ w < 10 ^ (2 + h.op.nparams)

/-- A safe run of `n` steps from `s`: no state on the way is faulted. -/
def SafeRun : Nat → State → Prop
  | 0, s => s.status ≠ .faulted
  | n + 1, s => s.status ≠ .faulted ∧ ∀ t, step s = .next t → SafeRun n t

end Sys2Proof.Machine
end

