-- ==== Sys2Proof/Certificates/Slice0/Obligations.lean ====
section
/-!
DEFINITION. The statements for the provers, from the spec's numbered rules. None of them is about a
program. Where a statement rests on a decision the spec marks as its own (D<n> of
92_eei_decisions.md) or on an entry of the assumption log, its docstring names it.
-/

open Sys2Proof Sys2Proof.Machine

/-! ## Encoding and decoding -/

/-- Every instruction, with every mode and every raw value, is read back from its encoding, whatever
cells follow it. The word's form is 30_encoding.md R78 (decision D23), the decoder R71. -/
def Obligations.DecodeOfEncodeIsIdentity : Prop :=
  ∀ (i : Instr) (rest : List Int), decode (encodeHead i.head) (i.raws ++ rest) = .ok i

/-- Digits above the modes the opcode has do not change what a word decodes to, for negative words
too (30_encoding.md R68 and R69; decisions D29 and D11). -/
def Obligations.DigitsAboveTheModesAreIgnored : Prop :=
  ∀ (w k : Int) (h : Head), decodeHead w = .ok h →
    decodeHead (w + k * 10 ^ (2 + h.op.nparams)) = .ok h

/-- A canonical word is the encoding of what it decodes to (30_encoding.md R78, decision D23). -/
def Obligations.CanonicalWordReencodes : Prop :=
  ∀ (w : Int) (h : Head), decodeHead w = .ok h → CanonicalWord w h → encodeHead h = w

/-- R62: the mode of parameter `i` is decimal digit `i+2` of the word, for every parameter the opcode
has, and there are no others. -/
def Obligations.ModesAreTheDigits : Prop :=
  ∀ (w : Int) (h : Head), decodeHead w = .ok h →
    h.modes.length = h.op.nparams ∧
      ∀ i, i < h.op.nparams → (h.modes.getD i .position).code = w / 10 ^ (i + 2) % 10

/-- R66: BadOpcode is raised exactly for an opcode field outside 1 to 9 and 99, and a running machine
that fetches such a word takes that fault. -/
def Obligations.BadOpcodeExactly : Prop :=
  (∀ (w w' : Int) (o : Int), decodeHead w = .error (.badOpcode w' o) ↔
    w' = w ∧ o = w % 100 ∧ ¬ ((1 ≤ w % 100 ∧ w % 100 ≤ 9) ∨ w % 100 = 99)) ∧
  (∀ s : State, s.status = .running → 0 ≤ s.pc → s.pc < s.imageLen →
    s.realisation.addressable s.pc.toNat = true →
    ¬ ((1 ≤ s.cell s.pc.toNat % 100 ∧ s.cell s.pc.toNat % 100 ≤ 9) ∨
        s.cell s.pc.toNat % 100 = 99) →
    Raises (step s) s (.decode (.badOpcode (s.cell s.pc.toNat) (s.cell s.pc.toNat % 100))))

/-- BadMode is raised exactly for a mode digit 3 to 9 of a parameter the opcode has, before anything is
executed (30_encoding.md R67); the lowest such parameter is the one reported (the order of R71, the
spec's own choice D9). -/
def Obligations.BadModeIsTheFirstBadDigit : Prop :=
  (∀ (w w' : Int) (p : Nat) (m : Int), decodeHead w = .error (.badMode w' p m) ↔
    w' = w ∧ m = w / 10 ^ (p + 2) % 10 ∧ 3 ≤ m ∧
      (∃ op : Opcode, op.code = w % 100 ∧ p < op.nparams) ∧
      ∀ j, j < p → w / 10 ^ (j + 2) % 10 ≤ 2) ∧
  (∀ (s : State) (e : DecodeError), s.status = .running → 0 ≤ s.pc → s.pc < s.imageLen →
    s.realisation.addressable s.pc.toNat = true → decodeHead (s.cell s.pc.toNat) = .error e →
    Raises (step s) s (.decode e))

/-- Words written out from the spec's encodings decode to the instructions they stand for
(95_test_vectors.md V1 and the examples of the instruction rules). That the digits above the modes of
10104 and 1099 are ignored is the spec's own choice D29 (30_encoding.md R68); how the negative words
-1, -99 and -5 decode is its own choice D11 (R61, R69). -/
def Obligations.SpecWordsDecode : Prop :=
  decode 1101 [100, -1, 4] = .ok (.add ⟨100, .immediate⟩ ⟨-1, .immediate⟩ ⟨4, .position⟩) ∧
  decode 1002 [4, 3, 4] = .ok (.mul ⟨4, .position⟩ ⟨3, .immediate⟩ ⟨4, .position⟩) ∧
  decode 203 [-1] = .ok (.inp ⟨-1, .relative⟩) ∧
  decode 10104 [-5] = .ok (.out ⟨-5, .immediate⟩) ∧
  decode 1205 [2, 16] = .ok (.jt ⟨2, .relative⟩ ⟨16, .immediate⟩) ∧
  decode 1106 [0, 4] = .ok (.jf ⟨0, .immediate⟩ ⟨4, .immediate⟩) ∧
  decode 21107 [0, 1, 2] = .ok (.lt ⟨0, .immediate⟩ ⟨1, .immediate⟩ ⟨2, .relative⟩) ∧
  decode 1108 [8, 8, 5] = .ok (.eq ⟨8, .immediate⟩ ⟨8, .immediate⟩ ⟨5, .position⟩) ∧
  decode 209 [1] = .ok (.arb ⟨1, .relative⟩) ∧
  decode 1099 [] = .ok .hlt ∧ decode (-1) [] = .ok .hlt ∧
  decode 91101 [] = .error (.badMode 91101 2 9) ∧
  decode (-99) [] = .error (.badMode (-99) 0 9) ∧
  decode (-5) [] = .error (.badOpcode (-5) 95)

/-! ## The step -/

/-- A step of a running machine executes the instruction that the cells at `pc` decode to, whatever
parameter cells lie at or beyond `L` (40_dispatch_and_step.md R93 to R95). -/
def Obligations.StepRunsDecodedInstruction : Prop :=
  ∀ (s : State) (i : Instr), s.status = .running → 0 ≤ s.pc → s.pc < s.imageLen →
    s.realisation.addressable (s.pc.toNat + i.width - 1) = true →
    decode (s.cell s.pc.toNat)
      [s.cell (s.pc.toNat + 1), s.cell (s.pc.toNat + 2), s.cell (s.pc.toNat + 3)] = .ok i →
    step s = exec i s

/-- The fetch checks (40_dispatch_and_step.md R93; decisions D5, D6 and D7): InvalidAddress at a
negative `pc`, OutOfBounds at or beyond `L`. -/
def Obligations.FetchChecksPc : Prop :=
  ∀ s : State, s.status = .running →
    (s.pc < 0 → Raises (step s) s (.invalidAddress s.pc)) ∧
    (0 ≤ s.pc → s.imageLen ≤ s.pc → Raises (step s) s (.outOfBounds s.pc))

/-- R161: every later step of a halted machine returns Halt and writes nothing, for any number of
steps. -/
def Obligations.HaltedStaysHalted : Prop :=
  ∀ s : State, s.status = .halted →
    (∀ d, stepWith d s = (.halt, s)) ∧ ∀ n, core.run n s = .next s

/-- A faulted machine returns its recorded fault again and changes nothing (40_dispatch_and_step.md
R92, decision D16). -/
def Obligations.FaultedRepeatsItsFault : Prop :=
  ∀ s : State, s.status = .faulted →
    (∀ d, stepWith d s = (.fault s.fault, s)) ∧ ∀ n, core.run n s = .next s

/-- Every step of every state has a next state: faults, holds and the status gate included (the
spec describes each of them; log 2). -/
def Obligations.StepIsTotal : Prop := ∀ s : State, ∃ t, step s = .next t

/-- `step` is the step function of 40_dispatch_and_step.md R91 at the free producer answer (log 4). -/
def Obligations.StepIsTheSpecsStep : Prop :=
  ∀ s : State, step s = .next (stepWith (Config.producerAnswer s.draws) s).2

/-- What each outcome of 00_scope.md R12 says of the state (R12, R97 and R98; decision D8): a step
that reports `stepped` leaves the machine running, and emitted exactly when `out`; a hold changed
nothing; a halt and a fault are told apart by the status. -/
def Obligations.OutcomesTellTheState : Prop :=
  ∀ (d : Int) (s t : State) (o : StepOutcome), stepWith d s = (o, t) →
    (∀ out, o = .stepped out → s.status = .running ∧ t.status = .running ∧
      (out = true ↔ ∃ v, t.outq = s.outq ++ [v]) ∧ (out = false → t.outq = s.outq)) ∧
    (o = .halt → t.status = .halted) ∧
    (o = .held → t = s ∧ s.status = .running ∧ s.inq = [] ∧ s.producerPresent = false) ∧
    (∀ rec, o = .fault rec → t.status = .faulted ∧ t.fault = rec)

/-! ## Memory and the resolver -/

/-- R42: what is written is read back until the next write, other cells read as before, and a write
below 0 raises InvalidAddress. -/
def Obligations.ReadAfterWrite : Prop :=
  ∀ (s : State) (a : Int) (v : Int), s.memCanonical →
    (a < 0 → memWrite s a v = .error (.invalidAddress a)) ∧
    (0 ≤ a → s.realisation.addressable a.toNat = true → s.realisation.cellFits v = true →
      ∃ t, memWrite s a v = .ok t ∧ t = { s with mem := t.mem } ∧ memRead t a = .ok v ∧
        ∀ b, b ≠ a → memRead t b = memRead s b)

/-- A negative address never reaches a cell, in an access, a fetch, an operand, a write target or from
the host, and the parameter cells of a fetched instruction are never at one (20_memory.md R43; for a
fetch decision D7, for the host D19). -/
def Obligations.NegativeAddressesAreRefused : Prop :=
  (∀ (s : State) (a : Int) (v : Int), a < 0 →
    memRead s a = .error (.invalidAddress a) ∧ memWrite s a v = .error (.invalidAddress a)) ∧
  (∀ s : State, s.status = .running → s.pc < 0 → Raises (step s) s (.invalidAddress s.pc)) ∧
  (∀ (s : State) (p : Param) (addr : Int), effectiveAddr s p = some addr → addr < 0 →
    readParam s p = .error (.invalidAddress addr) ∧
      ∀ (i : Nat) (v : Int), ∃ a, writeAddr s i p = .ok a ∧
        memWrite s a v = .error (.invalidAddress addr)) ∧
  (∀ (s : State) (n : Nat) (a : Int), 0 ≤ s.pc → readCells s (s.pc + 1) n ≠ .error (.invalidAddress a)) ∧
  (∀ (p : Port) (a : Int) (v : Int), p.pending = none → a < 0 →
    p.accept (.memRead a) = some (p, some (.refused (.invalidAddress a))) ∧
      p.accept (.memWrite a v) = some (p, some (.refused (.invalidAddress a))))

/-- R73: the three read modes. -/
def Obligations.ReadParamFollowsTheModes : Prop :=
  ∀ (s : State) (raw : Int),
    readParam s ⟨raw, .immediate⟩ = .ok raw ∧
    (raw < 0 → readParam s ⟨raw, .position⟩ = .error (.invalidAddress raw)) ∧
    (0 ≤ raw → s.realisation.addressable raw.toNat = true →
      readParam s ⟨raw, .position⟩ = .ok (s.cell raw.toNat)) ∧
    (s.rb + raw < 0 → readParam s ⟨raw, .relative⟩ = .error (.invalidAddress (s.rb + raw))) ∧
    (0 ≤ s.rb + raw → s.realisation.addressable (s.rb + raw).toNat = true →
      readParam s ⟨raw, .relative⟩ = .ok (s.cell (s.rb + raw).toNat))

/-- R74: the three modes of a write target. -/
def Obligations.WriteAddrFollowsTheModes : Prop :=
  ∀ (s : State) (i : Nat) (raw : Int),
    writeAddr s i ⟨raw, .position⟩ = .ok raw ∧
    writeAddr s i ⟨raw, .relative⟩ = .ok (s.rb + raw) ∧
    writeAddr s i ⟨raw, .immediate⟩ = .error (.invalidWriteTarget i) ∧
    ∀ (p : Param) (addr : Int) (v : Int), writeAddr s i p = .ok addr → addr < 0 →
      memWrite s addr v = .error (.invalidAddress addr)

/-- CapacityExceeded where an access or a value leaves a finite realisation (20_memory.md R55 and
60_exceptions.md R205; decision D2; the order of the two checks and the `pc` check are log 8, the
range of a cell log 7): a read, a write's address, a written value, and the next `pc`. -/
def Obligations.CapacityExceededIsRaised : Prop :=
  (∀ (s : State) (a : Int) (v : Int), 0 ≤ a → s.realisation.addressable a.toNat = false →
    memRead s a = .error (.capacityAddr a) ∧ memWrite s a v = .error (.capacityAddr a)) ∧
  (∀ (s : State) (a : Int) (v : Int), 0 ≤ a → s.realisation.addressable a.toNat = true →
    s.realisation.cellFits v = false → memWrite s a v = .error (.capacityValue v)) ∧
  (∀ (d : Int) (s : State) (i : Instr) (npc : Int) (out : Bool) (t : State),
    s.status = .running → fetch s = .ok i → execute d i s = .next npc out t →
    s.realisation.cellFits npc = false →
    stepWith d s = (.fault (some ⟨.capacityValue npc, s.pc⟩),
      { s with status := .faulted, fault := some ⟨.capacityValue npc, s.pc⟩ }))

/-! ## The instructions -/

/-- R110: ADD writes the exact sum. -/
def Obligations.AddMeaning : Prop := MeansBinary .add 1 (fun x y => x + y)

/-- R111: MUL writes the exact product. -/
def Obligations.MulMeaning : Prop := MeansBinary .mul 2 (fun x y => x * y)

/-- R140: LT writes 1 when the first operand is below the second as signed integers, else 0. -/
def Obligations.LessThanMeaning : Prop := MeansBinary .lt 7 (fun x y => if x < y then 1 else 0)

/-- R141: EQ writes 1 when the operands are equal, else 0. -/
def Obligations.EqualsMeaning : Prop := MeansBinary .eq 8 (fun x y => if x = y then 1 else 0)

/-- IN with a value to take completes: the front of the queue, or, with the queue empty and a producer
present, the producer's answer, is written to the target; `pc` advances by 2; the queue loses its
front in the first case only; nothing else changes but the model's draw counter (42_io.md R120 and
R121; decisions D9 and D12; the counter is log 4). `exec` takes the free answer of log 4, for every
value it has; `stepWith`, which is the command STEP(d) of 47_run_control.md R170, stores the queued
value whatever `d` is and any answer `d` when it asks for one. -/
def Obligations.InputCompletes : Prop :=
  ∀ (s : State) (dst : Param) (addr : Int), s.memCanonical → writeAddr s 0 dst = .ok addr →
    0 ≤ addr → s.realisation.addressable addr.toNat = true →
    s.realisation.cellFits (s.pc + 2) = true →
    (∀ v rest, s.inq = v :: rest → s.realisation.cellFits v = true →
      ∃ t, exec (.inp dst) s = .next t ∧
        t = { s with mem := t.mem, pc := s.pc + 2, inq := rest } ∧
        StoresOnly s t addr.toNat v ∧
        (s.status = .running → fetch s = .ok (.inp dst) →
          ∀ d, stepWith d s = (.stepped false, t))) ∧
    (s.inq = [] → s.producerPresent = true →
      s.realisation.cellFits (Config.producerAnswer s.draws) = true →
      ∃ t, exec (.inp dst) s = .next t ∧
        t = { s with mem := t.mem, pc := s.pc + 2, draws := s.draws + 1 } ∧
        StoresOnly s t addr.toNat (Config.producerAnswer s.draws)) ∧
    (s.inq = [] → s.producerPresent = true → s.status = .running → fetch s = .ok (.inp dst) →
      ∀ d, s.realisation.cellFits d = true →
        ∃ t, stepWith d s = (.stepped false, t) ∧
          t = { s with mem := t.mem, pc := s.pc + 2, draws := s.draws + 1 } ∧
          StoresOnly s t addr.toNat d)

/-- IN with the queue empty and no producer holds and leaves the state unchanged, and a PUSH_INPUT
lifts the hold: the next step runs the same Input and takes the pushed value (40_dispatch_and_step.md
R99, 47_run_control.md R176; decision D13). -/
def Obligations.PushLiftsTheHold : Prop :=
  ∀ (s : State) (dst : Param) (addr : Int) (v : Int), s.memCanonical → s.status = .running →
    fetch s = .ok (.inp dst) → writeAddr s 0 dst = .ok addr → 0 ≤ addr →
    s.realisation.addressable addr.toNat = true → s.realisation.cellFits v = true →
    s.realisation.cellFits (s.pc + 2) = true → s.inq = [] → s.producerPresent = false →
    (∀ d, stepWith d s = (.held, s)) ∧ step s = .next s ∧
    ∃ t, step (s.pushInput v) = .next t ∧ t = { s with mem := t.mem, pc := s.pc + 2 } ∧
      StoresOnly s t addr.toNat v

/-- A faulting IN takes no input: whatever the fault, the queue and the draw counter of log 4 are as
before. It faults on an immediate target and on a negative target address whatever the queue and the
producer (42_io.md R120, decision D9), and, with a value to take, on a target address or a value
outside a finite realisation (R120; the order of those two checks is log 8). That a fault after the
input was acquired commits nothing is decision D8. -/
def Obligations.InputChecksItsTargetFirst : Prop :=
  ∀ (s : State) (dst : Param),
    (∀ t, s.status ≠ .faulted → exec (.inp dst) s = .next t → t.status = .faulted →
      t.inq = s.inq ∧ t.draws = s.draws) ∧
    (dst.mode = .immediate → ∃ t, exec (.inp dst) s = .next t ∧ t.inq = s.inq ∧
      t.draws = s.draws ∧ t.status = .faulted ∧
      t.fault = some { cause := .invalidWriteTarget 0, pc := s.pc }) ∧
    ∀ addr, writeAddr s 0 dst = .ok addr →
      (addr < 0 → ∃ t, exec (.inp dst) s = .next t ∧
        t.inq = s.inq ∧ t.draws = s.draws ∧ t.status = .faulted ∧
        t.fault = some { cause := .invalidAddress addr, pc := s.pc }) ∧
      (0 ≤ addr → ∀ v, storeValue (Config.producerAnswer s.draws) (.inp dst) s = some v →
        (s.realisation.addressable addr.toNat = false → ∃ t, exec (.inp dst) s = .next t ∧
          t.inq = s.inq ∧ t.draws = s.draws ∧ t.status = .faulted ∧
          t.fault = some { cause := .capacityAddr addr, pc := s.pc }) ∧
        (s.realisation.addressable addr.toNat = true → s.realisation.cellFits v = false →
          ∃ t, exec (.inp dst) s = .next t ∧
            t.inq = s.inq ∧ t.draws = s.draws ∧ t.status = .faulted ∧
            t.fault = some { cause := .capacityValue v, pc := s.pc }))

/-- R122: OUT appends its operand to the output queue, advances `pc` by 2, reports an output, and
emits nothing when its operand faults. -/
def Obligations.OutputMeaning : Prop :=
  (∀ (a : Param) (rest : List Int), decode (4 + 100 * a.mode.code) (a.raw :: rest) = .ok (.out a)) ∧
  (∀ (s : State) (a : Param) (va : Int), readParam s a = .ok va →
    s.realisation.cellFits (s.pc + 2) = true →
    exec (.out a) s = .next { s with outq := s.outq ++ [va], pc := s.pc + 2 } ∧
      (s.status = .running → fetch s = .ok (.out a) → ∀ d, (stepWith d s).1 = .stepped true)) ∧
  (∀ (s : State) (a : Param) (c : FaultCause), readParam s a = .error c →
    ∃ t, exec (.out a) s = .next t ∧ t.outq = s.outq ∧ t.status = .faulted ∧
      t.fault = some { cause := c, pc := s.pc })

/-- R130: JT jumps when its condition is not 0, to any integer, and reads the target only then. -/
def Obligations.JumpIfTrueMeaning : Prop := MeansJump .jt 5 (fun v => v ≠ 0)

/-- R131: JF jumps when its condition is 0, to any integer, and reads the target only then. -/
def Obligations.JumpIfFalseMeaning : Prop := MeansJump .jf 6 (fun v => v = 0)

/-- R150: ARB adds its operand, read under the old base, to `rb`. -/
def Obligations.BaseOffsetMeaning : Prop :=
  (∀ (a : Param) (rest : List Int), decode (9 + 100 * a.mode.code) (a.raw :: rest) = .ok (.arb a)) ∧
  (∀ (s : State) (a : Param) (va : Int), readParam s a = .ok va →
    s.realisation.cellFits (s.rb + va) = true → s.realisation.cellFits (s.pc + 2) = true →
    exec (.arb a) s = .next { s with rb := s.rb + va, pc := s.pc + 2 }) ∧
  (∀ (s : State) (a : Param) (c : FaultCause), readParam s a = .error c →
    ∃ t, exec (.arb a) s = .next t ∧ t.rb = s.rb ∧ t.status = .faulted ∧
      t.fault = some { cause := c, pc := s.pc }) ∧
  (∀ (s : State) (a : Param) (va : Int), readParam s a = .ok va →
    s.realisation.cellFits (s.rb + va) = false →
    Raises (exec (.arb a) s) s (.capacityValue (s.rb + va)))

/-- R160: HLT sets the status and changes nothing else, in every state; every word with opcode field 99
is a Halt. -/
def Obligations.HaltMeaning : Prop :=
  (∀ (k : Int) (raws : List Int), decode (99 + 100 * k) raws = .ok .hlt) ∧
  (∀ s : State, exec .hlt s = .next { s with status := .halted })

/-! ## The whole machine -/

/-- Every step keeps the invariant: the memory in canonical form (log 1), the fault record there
exactly when the machine is faulted and naming the faulting instruction (10_state.md R25, decisions
D8 and D10), every cell in the range of the realisation (20_memory.md R55, decision D2), and `pc` and
`rb` too (00_scope.md R7, decision D1; that a next `pc` outside the range is CapacityExceeded at the
commit is log 8, the range itself log 7). -/
def Obligations.StepKeepsTheInvariant : Prop := ∀ s t : State, s.Inv → step s = .next t → t.Inv

/-- The state of log 5 meets the invariant. -/
def Obligations.ResetMeetsTheInvariant : Prop := State.reset.Inv

/-- Every construction of this hardware, the reference realisation, meets the invariant, whatever its
arguments (70_reset_and_hazards.md R231, decision D28). -/
def Obligations.ConstructionMeetsTheInvariant : Prop :=
  ∀ (image : List Int) (pc0 : Int) (inputs0 : List Int) (rb0 : Int) (producer : Bool),
    (construct Realisation.reference image pc0 inputs0 rb0 producer).Inv

/-- What CONSTRUCT leaves in every field, every cell included (70_reset_and_hazards.md R230, 10_state.md
R34; the empty output queue is decision D22, the status and the fault record D10). -/
def Obligations.ConstructLeaves : Prop :=
  ∀ (r : Realisation) (image : List Int) (pc0 : Int) (inputs0 : List Int) (rb0 : Int)
    (producer : Bool) (s : State), s = construct r image pc0 inputs0 rb0 producer →
    s.imageLen = image.length ∧ (∀ a, a < image.length → some (s.cell a) = image[a]?) ∧
    (∀ a, image.length ≤ a → s.cell a = 0) ∧ s.pc = pc0 ∧ s.rb = rb0 ∧ s.inq = inputs0 ∧
    s.outq = [] ∧ s.status = .running ∧ s.fault = none ∧ s.producerPresent = producer

/-- The model's reset is CONSTRUCT with every option at its default and the empty image, which is the
model's choice (log 5; 10_state.md R34); its first step raises OutOfBounds (R231, decision D28). -/
def Obligations.ResetIsTheDefaultConstruction : Prop :=
  State.reset = construct Realisation.reference [] 0 [] 0 false ∧
    Raises (step State.reset) State.reset (.outOfBounds 0)

/-- No step changes `L`, PRODUCER_PRESENT or the realisation (10_state.md R28 and R29, decision D5;
00_scope.md R7). -/
def Obligations.StepKeepsTheConstants : Prop :=
  ∀ s t : State, step s = .next t →
    t.imageLen = s.imageLen ∧ t.producerPresent = s.producerPresent ∧ t.realisation = s.realisation

/-- R23: only BaseOffset changes `rb`, and construction sets it. -/
def Obligations.OnlyBaseOffsetWritesRb : Prop :=
  (∀ s t : State, step s = .next t → t.rb ≠ s.rb →
    ∃ a va, s.status = .running ∧ fetch s = .ok (.arb a) ∧ readParam s a = .ok va ∧
      t.rb = s.rb + va) ∧
  (∀ (r : Realisation) (image : List Int) (pc0 : Int) (inputs0 : List Int) (rb0 : Int)
    (producer : Bool), (construct r image pc0 inputs0 rb0 producer).rb = rb0)

/-- R26: the input queue loses only its front, only to Input; the host adds to its back; construction
seeds it. -/
def Obligations.OnlyInputPopsTheQueue : Prop :=
  (∀ s t : State, step s = .next t → t.inq = s.inq ∨
    ∃ dst v, s.status = .running ∧ fetch s = .ok (.inp dst) ∧ s.inq = v :: t.inq) ∧
  (∀ (p : Port) (v : Int), p.pending = none →
    p.accept (.pushInput v) =
      some ({ p with machine := { p.machine with inq := p.machine.inq ++ [v] } }, some .ok)) ∧
  (∀ (r : Realisation) (image : List Int) (pc0 : Int) (inputs0 : List Int) (rb0 : Int)
    (producer : Bool), (construct r image pc0 inputs0 rb0 producer).inq = inputs0)

/-- A step appends to the output queue at most one value, the operand of the Output it executed, and
removes none (10_state.md R27, decision D22; 40_dispatch_and_step.md R97, decision D8). -/
def Obligations.OnlyOutputAppends : Prop :=
  ∀ s t : State, step s = .next t → t.outq = s.outq ∨
    ∃ a va, s.status = .running ∧ fetch s = .ok (.out a) ∧ readParam s a = .ok va ∧
      t.outq = s.outq ++ [va]

/-- A step changes no cell but the resolved write target of the instruction it executed
(40_dispatch_and_step.md R97, decision D8). -/
def Obligations.StoresOnlyToTheTarget : Prop :=
  ∀ (s t : State) (b : Nat), s.memCanonical → step s = .next t →
    (∀ i, s.status = .running → fetch s = .ok i → storeAddr i s ≠ some b) → t.cell b = s.cell b

/-- Faults are precise: a step that faults changes the status and the fault record and nothing else,
and the record names this instruction (60_exceptions.md R207, decision D8; claims about programs are
not to read the rest of the state after a fault, U8). -/
def Obligations.FaultsArePrecise : Prop :=
  ∀ s t : State, s.status = .running → step s = .next t → t.status = .faulted →
    ∃ c, t = { s with status := .faulted, fault := some { cause := c, pc := s.pc } }

/-- The columns code, kind, sub and detail of the fault table (60_exceptions.md R200, decision D10). -/
def Obligations.FaultTableColumns : Prop :=
  ∀ r : FaultRecord,
    (∀ w o, r.cause = .decode (.badOpcode w o) → r.code = 1 ∧ r.kind = .decodeError ∧
      r.sub.map FaultSub.code = some 1 ∧ r.detail = .opcode w o) ∧
    (∀ w i m, r.cause = .decode (.badMode w i m) → r.code = 1 ∧ r.kind = .decodeError ∧
      r.sub.map FaultSub.code = some 2 ∧ r.detail = .mode w i m) ∧
    (∀ i, r.cause = .invalidWriteTarget i → r.code = 2 ∧ r.kind = .invalidWriteTarget ∧
      r.sub = none ∧ r.detail = .param i) ∧
    (∀ a, r.cause = .invalidAddress a → r.code = 3 ∧ r.kind = .invalidAddress ∧
      r.sub = none ∧ r.detail = .addr a) ∧
    (∀ a, r.cause = .outOfBounds a → r.code = 4 ∧ r.kind = .outOfBounds ∧
      r.sub = none ∧ r.detail = .pc a) ∧
    (∀ a, r.cause = .capacityAddr a → r.code = 5 ∧ r.kind = .capacityExceeded ∧
      r.sub = none ∧ r.detail = .addr a) ∧
    (∀ v, r.cause = .capacityValue v → r.code = 5 ∧ r.kind = .capacityExceeded ∧
      r.sub = none ∧ r.detail = .value v)

/-- This hardware, the reference realisation, never raises CapacityExceeded (60_exceptions.md R205,
decisions D1 and D2). -/
def Obligations.ReferenceNeverExceedsCapacity : Prop :=
  ∀ (s t : State) (rec : FaultRecord), s.realisation = Realisation.reference →
    s.status = .running → step s = .next t → t.fault = some rec → s.fault = none →
    rec.kind ≠ .capacityExceeded

/-- Where `pc` goes when a step leaves the machine running: past the instruction, to the target of a
taken jump, or nowhere because the step held (10_state.md R22, 40_dispatch_and_step.md R96 and R99,
decision D13; Halt and faults leave it, which the other statements say). -/
def Obligations.PcMovesByWidthOrJump : Prop :=
  ∀ (s t : State) (i : Instr), s.status = .running → fetch s = .ok i → step s = .next t →
    t.status = .running →
    t.pc = s.pc + i.width ∨
    (∃ a b, (i = .jt a b ∨ i = .jf a b) ∧ readParam s b = .ok t.pc) ∨
    (∃ dst, i = .inp dst ∧ s.inq = [] ∧ s.producerPresent = false ∧ t = s)

/-- A safe run of `n` steps is one on which no state reached in at most `n` steps is faulted, and it is
all that has to be shown of a run that may fault: a faulted machine stays faulted
(40_dispatch_and_step.md R92, decision D16). -/
def Obligations.SafeRunReachesNoFault : Prop :=
  ∀ (n : Nat) (s : State), SafeRun n s ↔ ∃ t, core.run n s = .next t ∧ t.status ≠ .faulted

/-- Self-modifying code: whatever instruction stores into the word after it, and whatever word it stores,
the very next fetch reads that word, with no fence (70_reset_and_hazards.md R235 and R236,
20_memory.md R53). The next step runs the instruction the stored word makes with the cells after it,
or takes its decode error. -/
def Obligations.NextFetchSeesTheWrite : Prop :=
  ∀ (d : Int) (s : State) (i : Instr) (v : Int), s.memCanonical → s.status = .running →
    fetch s = .ok i → storeAddr i s = some (s.pc.toNat + i.width) → storeValue d i s = some v →
    s.pc + i.width < s.imageLen → s.realisation.addressable (s.pc.toNat + i.width) = true →
    s.realisation.cellFits v = true → s.realisation.cellFits (s.pc + i.width) = true →
    ∃ t, stepWith d s = (.stepped false, t) ∧ t.pc = s.pc + i.width ∧ t.status = .running ∧
      t.cell t.pc.toNat = v ∧
      (∀ e, decodeHead v = .error e → Raises (step t) t (.decode e)) ∧
      ∀ j : Instr, t.realisation.addressable (t.pc.toNat + j.width - 1) = true →
        decode v [t.cell (t.pc.toNat + 1), t.cell (t.pc.toNat + 2), t.cell (t.pc.toNat + 3)] =
          .ok j → step t = exec j t

/-- A program cannot observe the output queue: two states that differ only there take the same step,
with the same outcome, up to that queue (10_state.md R27: only the host's commands read it). -/
def Obligations.OutputQueueIsInvisible : Prop :=
  ∀ (d : Int) (s : State) (o : List Int),
    (stepWith d { s with outq := o }).1 = (stepWith d s).1 ∧
    { (stepWith d { s with outq := o }).2 with outq := [] } =
      { (stepWith d s).2 with outq := [] } ∧
    ∃ new, (stepWith d s).2.outq = s.outq ++ new ∧ (stepWith d { s with outq := o }).2.outq = o ++ new

/-! ## The host command port -/

/-- An idle port accepts every command, and what each does: CONSTRUCT, STEP, PUSH_INPUT, MEM_READ,
MEM_WRITE and READ_STATE are answered at once, a run command becomes pending (47_run_control.md R170,
R172 and R176 to R179; decisions D18 to D20). That CONSTRUCT keeps the port's realisation and that an
access outside a finite one is refused is log 9; that a run command is pending in the port is log 10.
What `memRead` and `memWrite` do is `ReadAfterWrite` and `NegativeAddressesAreRefused`. -/
def Obligations.IdlePortTakesCommands : Prop :=
  ∀ (p : Port), p.pending = none →
    (∀ c, ∃ q, p.accept c = some q) ∧
    (∀ d, p.accept (.step d) = some ({ p with machine := (stepWith d p.machine).2 },
      some (.outcome (stepWith d p.machine).1))) ∧
    (∀ v, p.accept (.pushInput v) =
      some ({ p with machine := { p.machine with inq := p.machine.inq ++ [v] } }, some .ok)) ∧
    (∀ a v, memRead p.machine a = .ok v → p.accept (.memRead a) = some (p, some (.value v))) ∧
    (∀ a c, memRead p.machine a = .error c →
      p.accept (.memRead a) = some (p, some (.refused c))) ∧
    (∀ a v t, memWrite p.machine a v = .ok t →
      p.accept (.memWrite a v) = some ({ p with machine := t }, some .ok)) ∧
    (∀ a v c, memWrite p.machine a v = .error c →
      p.accept (.memWrite a v) = some (p, some (.refused c))) ∧
    p.accept .readState = some (p,
      some (.state p.machine.pc p.machine.rb p.machine.status p.machine.fault)) ∧
    (∀ image pc0 inputs0 rb0 producer, p.accept (.construct image pc0 inputs0 rb0 producer) =
      some ({ p with machine := construct p.machine.realisation image pc0 inputs0 rb0 producer },
        some .ok)) ∧
    p.accept .run = some ({ p with pending := some .run }, none) ∧
    p.accept .runUntilOutput = some ({ p with pending := some .untilOutput }, none) ∧
    (∀ n, p.accept (.runN n) = some ({ p with pending := some (.untilN n []) }, none))

/-- MEM_READ and MEM_WRITE by an idle port (47_run_control.md R177 and R178; decision D19): the cell
and nothing else, or a refusal that leaves the machine unchanged. -/
def Obligations.HostMemoryAccess : Prop :=
  ∀ (p : Port) (a : Int) (v : Int), p.pending = none →
    (a < 0 → p.accept (.memRead a) = some (p, some (.refused (.invalidAddress a))) ∧
      p.accept (.memWrite a v) = some (p, some (.refused (.invalidAddress a)))) ∧
    (0 ≤ a → p.machine.realisation.addressable a.toNat = true →
      p.accept (.memRead a) = some (p, some (.value (p.machine.cell a.toNat)))) ∧
    (p.machine.memCanonical → 0 ≤ a → p.machine.realisation.addressable a.toNat = true →
      p.machine.realisation.cellFits v = true →
      ∃ t, p.accept (.memWrite a v) = some ({ p with machine := t }, some .ok) ∧
        t = { p.machine with mem := t.mem } ∧ StoresOnly p.machine t a.toNat v)

/-- While a run command is pending the port takes PUSH_INPUT, only when the command is held on input,
and no other command (47_run_control.md R171 and R180; decisions D13 and D21). -/
def Obligations.PendingPortTakesOnlyPushes : Prop :=
  ∀ (p : Port) (k : Pending), p.pending = some k →
    (∀ c, (∀ v, c ≠ .pushInput v) → p.accept c = none) ∧
    (∀ v, p.held = true → p.accept (.pushInput v) =
      some ({ p with machine := { p.machine with inq := p.machine.inq ++ [v] } }, some .ok)) ∧
    (∀ v, p.held = false → p.accept (.pushInput v) = none)

/-- The tests of RUN_UNTIL_OUTPUT in their order (47_run_control.md R174, decision D14). -/
def Obligations.RunUntilOutputTests : Prop :=
  ∀ (d : Int) (s : State),
    (s.status = .faulted → Port.advance d ⟨s, some .untilOutput⟩ = (⟨s, none⟩, some (.fault s.fault))) ∧
    (∀ v rest, s.status ≠ .faulted → s.outq = v :: rest →
      Port.advance d ⟨s, some .untilOutput⟩ = (⟨{ s with outq := rest }, none⟩, some (.value v))) ∧
    (s.status = .halted → s.outq = [] →
      Port.advance d ⟨s, some .untilOutput⟩ = (⟨s, none⟩, some .noValue)) ∧
    (s.status = .running → s.outq = [] →
      Port.advance d ⟨s, some .untilOutput⟩ = (⟨(stepWith d s).2, some .untilOutput⟩, none))

/-- RUN, when it completes, returns every output still queued, those from before the command included,
without popping them, on a halted machine; or the fault on a faulted one (47_run_control.md R173). The
command is run by `Port.serve`, the one host of log 10, under the producer answers of log 4. -/
def Obligations.RunReturnsEveryOutput : Prop :=
  ∀ (fuel : Nat) (feed rest : List Int) (s : State) (r : Reply) (q : Port),
    Port.serve fuel feed ⟨s, some .run⟩ = some (r, q, rest) → q.pending = none ∧
    ((∃ new, r = .done (s.outq ++ new) ∧ q.machine.outq = s.outq ++ new ∧
        q.machine.status = .halted) ∨
      (r = .fault q.machine.fault ∧ q.machine.status = .faulted))

/-- A RUN that returns its outputs has ended, and ended well: halted, with no fault recorded
(47_run_control.md R182; the invariant is `StepKeepsTheInvariant`'s). The command is run by
`Port.serve`, the one host of log 10, under the producer answers of log 4. -/
def Obligations.CompletedRunEndedWell : Prop :=
  ∀ (fuel : Nat) (feed rest outs : List Int) (s : State) (q : Port), s.Inv →
    Port.serve fuel feed ⟨s, some .run⟩ = some (.done outs, q, rest) →
    q.machine.ended = true ∧ q.machine.endedWell = true

/-- RUN_N (47_run_control.md R175, decision D15). One iteration, under any producer answer, makes the
tests of R174 and pops the front of the output queue behind the values collected. When the command
completes it answers exactly `n` values after those collected, which are the front of everything
queued before it and emitted under it, and what it did not pop is still queued; or NoValue on a halted
machine with nothing queued; or the fault. `n = 0` answers at once with no step, on a faulted machine
too (the model's choice, log 19). The command is run to its reply by `Port.serve`, the one host of
log 10, under the producer answers of log 4. -/
def Obligations.RunNCollectsExactlyN : Prop :=
  (∀ (d : Int) (s : State) (n : Nat) (vs : List Int),
    (s.status = .faulted → Port.advance d ⟨s, some (.untilN (n + 1) vs)⟩ =
      (⟨s, none⟩, some (.fault s.fault))) ∧
    (∀ v rest, s.status ≠ .faulted → s.outq = v :: rest →
      Port.advance d ⟨s, some (.untilN (n + 1) vs)⟩ =
        (⟨{ s with outq := rest }, some (.untilN n (vs ++ [v]))⟩, none)) ∧
    (s.status = .halted → s.outq = [] → Port.advance d ⟨s, some (.untilN (n + 1) vs)⟩ =
      (⟨s, none⟩, some .noValue)) ∧
    (s.status = .running → s.outq = [] → Port.advance d ⟨s, some (.untilN (n + 1) vs)⟩ =
      (⟨(stepWith d s).2, some (.untilN (n + 1) vs)⟩, none)) ∧
    Port.advance d ⟨s, some (.untilN 0 vs)⟩ = (⟨s, none⟩, some (.values vs))) ∧
  (∀ (fuel n : Nat) (vs feed rest : List Int) (s : State) (r : Reply) (q : Port),
    Port.serve fuel feed ⟨s, some (.untilN n vs)⟩ = some (r, q, rest) → q.pending = none ∧
    ((∃ new emitted, r = .values (vs ++ new) ∧ new.length = n ∧
        s.outq ++ emitted = new ++ q.machine.outq) ∨
      (r = .noValue ∧ q.machine.status = .halted ∧ q.machine.outq = []) ∨
      (r = .fault q.machine.fault ∧ q.machine.status = .faulted))) ∧
  (∀ (fuel : Nat) (vs feed : List Int) (s : State),
    Port.serve (fuel + 1) feed ⟨s, some (.untilN 0 vs)⟩ = some (.values vs, ⟨s, none⟩, feed))

/-- R209: a fault is never reported for a halt nor a halt for a fault, by a step or by the iteration that
answers a run command, under any producer answer. -/
def Obligations.FaultIsNotHalt : Prop :=
  (∀ (d : Int) (s t : State) (o : StepOutcome), stepWith d s = (o, t) →
    (o = .halt → t.status = .halted) ∧ (∀ rec, o = .fault rec → t.status = .faulted)) ∧
  (∀ (d : Int) (p q : Port) (r : Reply), p.advance d = (q, some r) →
    ((∃ outs, r = .done outs) ∨ r = .noValue → q.machine.status = .halted) ∧
    (∀ rec, r = .fault rec → q.machine.status = .faulted))

/-- Driving-style equivalence (47_run_control.md R184): when one RUN completes with some outputs, then
RUN_UNTIL_OUTPUT issued until it answers NoValue, under the same pushes at the same holds and the
same producer answers, returns the same outputs one by one and leaves the same machine but for the
output queue, which it empties and RUN leaves full. Both are run by `Port.serve`, the one host of
log 10, under the producer answers of log 4. -/
def Obligations.DrivingStylesAgree : Prop :=
  ∀ (fuel : Nat) (feed rest outs : List Int) (s : State) (q : Port),
    Port.serve fuel feed ⟨s, some .run⟩ = some (.done outs, q, rest) →
    q.machine.outq = outs ∧
    ∃ calls fuel', collectOutputs calls fuel' feed s =
      some (outs, { q.machine with outq := [] }, rest)
end

