-- ==== Sys2Proof/Laws/Decode.lean ====
section
/-!
SUPPORT. The small lemmas of the decoder's tables and fields (30_encoding.md R61 to R67, 00_scope.md
R9 and R10).
-/

namespace Sys2Proof

/-- `/` by a positive divisor is the floor of 00_scope.md R9. -/
theorem floor_spec (x m : Int) (h : 0 < m) : m * (x / m) ≤ x ∧ x < m * (x / m) + m :=
  ⟨Int.mul_ediv_self_le (by omega), Int.lt_mul_ediv_self_add h⟩

/-- `%` by a positive divisor is the floored remainder of 00_scope.md R9, in `[0, m-1]`. -/
theorem mod_spec (x m : Int) (h : 0 < m) : x % m = x - m * (x / m) ∧ 0 ≤ x % m ∧ x % m < m :=
  ⟨Int.emod_def x m, Int.emod_nonneg x (by omega), Int.emod_lt_of_pos x h⟩

theorem digit_range (w : Int) (k : Nat) : 0 ≤ digit w k ∧ digit w k ≤ 9 := by
  unfold digit
  omega

theorem opcodeField_range (w : Int) : 0 ≤ opcodeField w ∧ opcodeField w ≤ 99 := by
  unfold opcodeField
  omega

/-! ### Opcodes -/

@[simp] theorem opcodeOf_code (op : Opcode) : opcodeOf op.code = some op := by
  cases op <;> rfl

theorem opcodeOf_eq_some {f : Int} {op : Opcode} : opcodeOf f = some op ↔ f = op.code := by
  constructor
  · intro h
    have := List.find?_some h
    simpa using (beq_iff_eq.1 this).symm
  · rintro rfl
    exact opcodeOf_code op

theorem opcodeOf_eq_none {f : Int} : opcodeOf f = none ↔ ∀ op : Opcode, f ≠ op.code := by
  constructor
  · rintro h op rfl
    simp at h
  · intro h
    cases ho : opcodeOf f with
    | none => rfl
    | some op => exact absurd (opcodeOf_eq_some.1 ho) (h op)

/-! ### Modes -/

@[simp] theorem modeOf_code (m : Mode) : modeOf m.code = some m := by
  cases m <;> rfl

theorem modeOf_eq_some {d : Int} {m : Mode} : modeOf d = some m ↔ d = m.code := by
  constructor
  · intro h
    unfold modeOf at h
    split at h
    · cases h; assumption
    · split at h
      · cases h; assumption
      · split at h
        · cases h; assumption
        · cases h
  · rintro rfl
    exact modeOf_code m

theorem Mode.code_range (m : Mode) : 0 ≤ m.code ∧ m.code ≤ 2 := by
  cases m <;> decide

/-- The decoder's mode list has one mode per parameter. -/
theorem decodeModes_length {w : Int} {i n : Nat} {ms : List Mode}
    (h : decodeModes w i n = .ok ms) : ms.length = n := by
  induction n generalizing i ms with
  | zero => cases h; rfl
  | succ n ih =>
    unfold decodeModes at h
    split at h
    · cases h
    · split at h
      · cases h
      · cases h
        simp [ih ‹_›]

/-- What a successful head decode says. -/
theorem decodeHead_ok {w : Int} {h : Head} (hd : decodeHead w = .ok h) :
    opcodeField w = h.op.code ∧ decodeModes w 0 h.op.nparams = .ok h.modes := by
  unfold decodeHead at hd
  split at hd
  · cases hd
  · split at hd
    · cases hd
    · cases hd
      exact ⟨opcodeOf_eq_some.1 ‹_›, ‹_›⟩

/-! ### Instructions -/

@[simp] theorem Instr.raws_length (i : Instr) : i.raws.length = i.params.length := by
  simp [Instr.raws]

@[simp] theorem encode_length (i : Instr) : (encode i).length = 1 + i.params.length := by
  simp [encode, Nat.add_comm]

end Sys2Proof
end

