-- ==== Sys2Proof/Laws/State.lean ====
section
/-!
SUPPORT. One lemma per field of State per named update, and what each update leaves of the
architectural view of memory, so that no proof unfolds a record update.
-/

namespace Sys2Proof.Machine

/-! ### store -/

@[simp] theorem State.store_mem (s : State) (a : Nat) (v : Int) :
    (s.store a v).mem = s.mem.write a v := rfl
@[simp] theorem State.store_imageLen (s : State) (a : Nat) (v : Int) :
    (s.store a v).imageLen = s.imageLen := rfl
@[simp] theorem State.store_pc (s : State) (a : Nat) (v : Int) :
    (s.store a v).pc = s.pc := rfl
@[simp] theorem State.store_rb (s : State) (a : Nat) (v : Int) :
    (s.store a v).rb = s.rb := rfl
@[simp] theorem State.store_inq (s : State) (a : Nat) (v : Int) :
    (s.store a v).inq = s.inq := rfl
@[simp] theorem State.store_outq (s : State) (a : Nat) (v : Int) :
    (s.store a v).outq = s.outq := rfl
@[simp] theorem State.store_status (s : State) (a : Nat) (v : Int) :
    (s.store a v).status = s.status := rfl
@[simp] theorem State.store_fault (s : State) (a : Nat) (v : Int) :
    (s.store a v).fault = s.fault := rfl
@[simp] theorem State.store_producerPresent (s : State) (a : Nat) (v : Int) :
    (s.store a v).producerPresent = s.producerPresent := rfl
@[simp] theorem State.store_realisation (s : State) (a : Nat) (v : Int) :
    (s.store a v).realisation = s.realisation := rfl
@[simp] theorem State.store_draws (s : State) (a : Nat) (v : Int) :
    (s.store a v).draws = s.draws := rfl

/-! ### setPc -/

@[simp] theorem State.setPc_mem (s : State) (v : Int) :
    (s.setPc v).mem = s.mem := rfl
@[simp] theorem State.setPc_imageLen (s : State) (v : Int) :
    (s.setPc v).imageLen = s.imageLen := rfl
@[simp] theorem State.setPc_pc (s : State) (v : Int) :
    (s.setPc v).pc = v := rfl
@[simp] theorem State.setPc_rb (s : State) (v : Int) :
    (s.setPc v).rb = s.rb := rfl
@[simp] theorem State.setPc_inq (s : State) (v : Int) :
    (s.setPc v).inq = s.inq := rfl
@[simp] theorem State.setPc_outq (s : State) (v : Int) :
    (s.setPc v).outq = s.outq := rfl
@[simp] theorem State.setPc_status (s : State) (v : Int) :
    (s.setPc v).status = s.status := rfl
@[simp] theorem State.setPc_fault (s : State) (v : Int) :
    (s.setPc v).fault = s.fault := rfl
@[simp] theorem State.setPc_producerPresent (s : State) (v : Int) :
    (s.setPc v).producerPresent = s.producerPresent := rfl
@[simp] theorem State.setPc_realisation (s : State) (v : Int) :
    (s.setPc v).realisation = s.realisation := rfl
@[simp] theorem State.setPc_draws (s : State) (v : Int) :
    (s.setPc v).draws = s.draws := rfl
@[simp] theorem State.setPc_cell (s : State) (v : Int) (k : Nat) :
    (s.setPc v).cell k = s.cell k := rfl

/-! ### setRb -/

@[simp] theorem State.setRb_mem (s : State) (v : Int) :
    (s.setRb v).mem = s.mem := rfl
@[simp] theorem State.setRb_imageLen (s : State) (v : Int) :
    (s.setRb v).imageLen = s.imageLen := rfl
@[simp] theorem State.setRb_pc (s : State) (v : Int) :
    (s.setRb v).pc = s.pc := rfl
@[simp] theorem State.setRb_rb (s : State) (v : Int) :
    (s.setRb v).rb = v := rfl
@[simp] theorem State.setRb_inq (s : State) (v : Int) :
    (s.setRb v).inq = s.inq := rfl
@[simp] theorem State.setRb_outq (s : State) (v : Int) :
    (s.setRb v).outq = s.outq := rfl
@[simp] theorem State.setRb_status (s : State) (v : Int) :
    (s.setRb v).status = s.status := rfl
@[simp] theorem State.setRb_fault (s : State) (v : Int) :
    (s.setRb v).fault = s.fault := rfl
@[simp] theorem State.setRb_producerPresent (s : State) (v : Int) :
    (s.setRb v).producerPresent = s.producerPresent := rfl
@[simp] theorem State.setRb_realisation (s : State) (v : Int) :
    (s.setRb v).realisation = s.realisation := rfl
@[simp] theorem State.setRb_draws (s : State) (v : Int) :
    (s.setRb v).draws = s.draws := rfl
@[simp] theorem State.setRb_cell (s : State) (v : Int) (k : Nat) :
    (s.setRb v).cell k = s.cell k := rfl

/-! ### setInq -/

@[simp] theorem State.setInq_mem (s : State) (rest : List Int) :
    (s.setInq rest).mem = s.mem := rfl
@[simp] theorem State.setInq_imageLen (s : State) (rest : List Int) :
    (s.setInq rest).imageLen = s.imageLen := rfl
@[simp] theorem State.setInq_pc (s : State) (rest : List Int) :
    (s.setInq rest).pc = s.pc := rfl
@[simp] theorem State.setInq_rb (s : State) (rest : List Int) :
    (s.setInq rest).rb = s.rb := rfl
@[simp] theorem State.setInq_inq (s : State) (rest : List Int) :
    (s.setInq rest).inq = rest := rfl
@[simp] theorem State.setInq_outq (s : State) (rest : List Int) :
    (s.setInq rest).outq = s.outq := rfl
@[simp] theorem State.setInq_status (s : State) (rest : List Int) :
    (s.setInq rest).status = s.status := rfl
@[simp] theorem State.setInq_fault (s : State) (rest : List Int) :
    (s.setInq rest).fault = s.fault := rfl
@[simp] theorem State.setInq_producerPresent (s : State) (rest : List Int) :
    (s.setInq rest).producerPresent = s.producerPresent := rfl
@[simp] theorem State.setInq_realisation (s : State) (rest : List Int) :
    (s.setInq rest).realisation = s.realisation := rfl
@[simp] theorem State.setInq_draws (s : State) (rest : List Int) :
    (s.setInq rest).draws = s.draws := rfl
@[simp] theorem State.setInq_cell (s : State) (rest : List Int) (k : Nat) :
    (s.setInq rest).cell k = s.cell k := rfl

/-! ### drawn -/

@[simp] theorem State.drawn_mem (s : State) :
    s.drawn.mem = s.mem := rfl
@[simp] theorem State.drawn_imageLen (s : State) :
    s.drawn.imageLen = s.imageLen := rfl
@[simp] theorem State.drawn_pc (s : State) :
    s.drawn.pc = s.pc := rfl
@[simp] theorem State.drawn_rb (s : State) :
    s.drawn.rb = s.rb := rfl
@[simp] theorem State.drawn_inq (s : State) :
    s.drawn.inq = s.inq := rfl
@[simp] theorem State.drawn_outq (s : State) :
    s.drawn.outq = s.outq := rfl
@[simp] theorem State.drawn_status (s : State) :
    s.drawn.status = s.status := rfl
@[simp] theorem State.drawn_fault (s : State) :
    s.drawn.fault = s.fault := rfl
@[simp] theorem State.drawn_producerPresent (s : State) :
    s.drawn.producerPresent = s.producerPresent := rfl
@[simp] theorem State.drawn_realisation (s : State) :
    s.drawn.realisation = s.realisation := rfl
@[simp] theorem State.drawn_draws (s : State) :
    s.drawn.draws = s.draws + 1 := rfl
@[simp] theorem State.drawn_cell (s : State) (k : Nat) :
    s.drawn.cell k = s.cell k := rfl

/-! ### emit -/

@[simp] theorem State.emit_mem (s : State) (v : Int) :
    (s.emit v).mem = s.mem := rfl
@[simp] theorem State.emit_imageLen (s : State) (v : Int) :
    (s.emit v).imageLen = s.imageLen := rfl
@[simp] theorem State.emit_pc (s : State) (v : Int) :
    (s.emit v).pc = s.pc := rfl
@[simp] theorem State.emit_rb (s : State) (v : Int) :
    (s.emit v).rb = s.rb := rfl
@[simp] theorem State.emit_inq (s : State) (v : Int) :
    (s.emit v).inq = s.inq := rfl
@[simp] theorem State.emit_outq (s : State) (v : Int) :
    (s.emit v).outq = s.outq ++ [v] := rfl
@[simp] theorem State.emit_status (s : State) (v : Int) :
    (s.emit v).status = s.status := rfl
@[simp] theorem State.emit_fault (s : State) (v : Int) :
    (s.emit v).fault = s.fault := rfl
@[simp] theorem State.emit_producerPresent (s : State) (v : Int) :
    (s.emit v).producerPresent = s.producerPresent := rfl
@[simp] theorem State.emit_realisation (s : State) (v : Int) :
    (s.emit v).realisation = s.realisation := rfl
@[simp] theorem State.emit_draws (s : State) (v : Int) :
    (s.emit v).draws = s.draws := rfl
@[simp] theorem State.emit_cell (s : State) (v : Int) (k : Nat) :
    (s.emit v).cell k = s.cell k := rfl

/-! ### setOutq -/

@[simp] theorem State.setOutq_mem (s : State) (rest : List Int) :
    (s.setOutq rest).mem = s.mem := rfl
@[simp] theorem State.setOutq_imageLen (s : State) (rest : List Int) :
    (s.setOutq rest).imageLen = s.imageLen := rfl
@[simp] theorem State.setOutq_pc (s : State) (rest : List Int) :
    (s.setOutq rest).pc = s.pc := rfl
@[simp] theorem State.setOutq_rb (s : State) (rest : List Int) :
    (s.setOutq rest).rb = s.rb := rfl
@[simp] theorem State.setOutq_inq (s : State) (rest : List Int) :
    (s.setOutq rest).inq = s.inq := rfl
@[simp] theorem State.setOutq_outq (s : State) (rest : List Int) :
    (s.setOutq rest).outq = rest := rfl
@[simp] theorem State.setOutq_status (s : State) (rest : List Int) :
    (s.setOutq rest).status = s.status := rfl
@[simp] theorem State.setOutq_fault (s : State) (rest : List Int) :
    (s.setOutq rest).fault = s.fault := rfl
@[simp] theorem State.setOutq_producerPresent (s : State) (rest : List Int) :
    (s.setOutq rest).producerPresent = s.producerPresent := rfl
@[simp] theorem State.setOutq_realisation (s : State) (rest : List Int) :
    (s.setOutq rest).realisation = s.realisation := rfl
@[simp] theorem State.setOutq_draws (s : State) (rest : List Int) :
    (s.setOutq rest).draws = s.draws := rfl
@[simp] theorem State.setOutq_cell (s : State) (rest : List Int) (k : Nat) :
    (s.setOutq rest).cell k = s.cell k := rfl

/-! ### halt -/

@[simp] theorem State.halt_mem (s : State) :
    s.halt.mem = s.mem := rfl
@[simp] theorem State.halt_imageLen (s : State) :
    s.halt.imageLen = s.imageLen := rfl
@[simp] theorem State.halt_pc (s : State) :
    s.halt.pc = s.pc := rfl
@[simp] theorem State.halt_rb (s : State) :
    s.halt.rb = s.rb := rfl
@[simp] theorem State.halt_inq (s : State) :
    s.halt.inq = s.inq := rfl
@[simp] theorem State.halt_outq (s : State) :
    s.halt.outq = s.outq := rfl
@[simp] theorem State.halt_status (s : State) :
    s.halt.status = .halted := rfl
@[simp] theorem State.halt_fault (s : State) :
    s.halt.fault = s.fault := rfl
@[simp] theorem State.halt_producerPresent (s : State) :
    s.halt.producerPresent = s.producerPresent := rfl
@[simp] theorem State.halt_realisation (s : State) :
    s.halt.realisation = s.realisation := rfl
@[simp] theorem State.halt_draws (s : State) :
    s.halt.draws = s.draws := rfl
@[simp] theorem State.halt_cell (s : State) (k : Nat) :
    s.halt.cell k = s.cell k := rfl

/-! ### pushInput -/

@[simp] theorem State.pushInput_mem (s : State) (v : Int) :
    (s.pushInput v).mem = s.mem := rfl
@[simp] theorem State.pushInput_imageLen (s : State) (v : Int) :
    (s.pushInput v).imageLen = s.imageLen := rfl
@[simp] theorem State.pushInput_pc (s : State) (v : Int) :
    (s.pushInput v).pc = s.pc := rfl
@[simp] theorem State.pushInput_rb (s : State) (v : Int) :
    (s.pushInput v).rb = s.rb := rfl
@[simp] theorem State.pushInput_inq (s : State) (v : Int) :
    (s.pushInput v).inq = s.inq ++ [v] := rfl
@[simp] theorem State.pushInput_outq (s : State) (v : Int) :
    (s.pushInput v).outq = s.outq := rfl
@[simp] theorem State.pushInput_status (s : State) (v : Int) :
    (s.pushInput v).status = s.status := rfl
@[simp] theorem State.pushInput_fault (s : State) (v : Int) :
    (s.pushInput v).fault = s.fault := rfl
@[simp] theorem State.pushInput_producerPresent (s : State) (v : Int) :
    (s.pushInput v).producerPresent = s.producerPresent := rfl
@[simp] theorem State.pushInput_realisation (s : State) (v : Int) :
    (s.pushInput v).realisation = s.realisation := rfl
@[simp] theorem State.pushInput_draws (s : State) (v : Int) :
    (s.pushInput v).draws = s.draws := rfl
@[simp] theorem State.pushInput_cell (s : State) (v : Int) (k : Nat) :
    (s.pushInput v).cell k = s.cell k := rfl

/-! ### takeFault -/

@[simp] theorem State.takeFault_mem (s : State) (c : FaultCause) :
    (s.takeFault c).mem = s.mem := rfl
@[simp] theorem State.takeFault_imageLen (s : State) (c : FaultCause) :
    (s.takeFault c).imageLen = s.imageLen := rfl
@[simp] theorem State.takeFault_pc (s : State) (c : FaultCause) :
    (s.takeFault c).pc = s.pc := rfl
@[simp] theorem State.takeFault_rb (s : State) (c : FaultCause) :
    (s.takeFault c).rb = s.rb := rfl
@[simp] theorem State.takeFault_inq (s : State) (c : FaultCause) :
    (s.takeFault c).inq = s.inq := rfl
@[simp] theorem State.takeFault_outq (s : State) (c : FaultCause) :
    (s.takeFault c).outq = s.outq := rfl
@[simp] theorem State.takeFault_status (s : State) (c : FaultCause) :
    (s.takeFault c).status = .faulted := rfl
@[simp] theorem State.takeFault_fault (s : State) (c : FaultCause) :
    (s.takeFault c).fault = some { cause := c, pc := s.pc } := rfl
@[simp] theorem State.takeFault_producerPresent (s : State) (c : FaultCause) :
    (s.takeFault c).producerPresent = s.producerPresent := rfl
@[simp] theorem State.takeFault_realisation (s : State) (c : FaultCause) :
    (s.takeFault c).realisation = s.realisation := rfl
@[simp] theorem State.takeFault_draws (s : State) (c : FaultCause) :
    (s.takeFault c).draws = s.draws := rfl
@[simp] theorem State.takeFault_cell (s : State) (c : FaultCause) (k : Nat) :
    (s.takeFault c).cell k = s.cell k := rfl

end Sys2Proof.Machine
end

