-- ==== Sys2Proof/Laws/Memory.lean ====
section
/-!
SUPPORT. Memory: what a read gives after a write, and that every operation keeps the canonical form
(20_memory.md R41, R42; log 1).
-/

namespace Sys2Proof.Machine

@[simp] theorem Memory.read_nil (a : Nat) : Memory.read [] a = 0 := rfl

theorem Memory.read_cons (k : Nat) (v : Int) (m : Memory) (a : Nat) :
    Memory.read ((k, v) :: m) a = if k = a then v else m.read a := rfl

/-- A canonical memory has a nonzero first cell, every other key above its key, and a canonical rest. -/
theorem Memory.wf_cons {a : Nat} {v : Int} {m : Memory} :
    Memory.wf ((a, v) :: m) = true ↔ v ≠ 0 ∧ m.above a = true ∧ m.wf = true := by
  simp [Memory.wf, and_assoc]

theorem Memory.above_cons {a k : Nat} {v : Int} {m : Memory} :
    Memory.above a ((k, v) :: m) = true ↔ a < k ∧ m.above a = true := by
  simp [Memory.above]

theorem Memory.above_of_le {a b : Nat} {m : Memory} (h : b ≤ a) (hm : m.above a = true) :
    m.above b = true := by
  simp only [Memory.above, List.all_eq_true, decide_eq_true_eq] at *
  exact fun c hc => lt_of_le_of_lt h (hm c hc)

/-- Below the first key every cell reads 0. -/
theorem Memory.read_of_above {a b : Nat} {m : Memory} (h : m.above a = true) (hb : b ≤ a) :
    m.read b = 0 := by
  induction m with
  | nil => rfl
  | cons c m ih =>
    obtain ⟨k, v⟩ := c
    rw [Memory.above_cons] at h
    rw [Memory.read_cons, if_neg (by omega), ih h.2]

theorem Memory.above_push {a b : Nat} {v : Int} {m : Memory} (h : b < a) (hm : m.above b = true) :
    (Memory.push a v m).above b = true := by
  unfold Memory.push
  split
  · exact hm
  · exact Memory.above_cons.2 ⟨h, hm⟩

theorem Memory.wf_push {a : Nat} {v : Int} {m : Memory} (h : m.above a = true) (hm : m.wf = true) :
    (Memory.push a v m).wf = true := by
  unfold Memory.push
  split
  · exact hm
  · exact Memory.wf_cons.2 ⟨‹_›, h, hm⟩

theorem Memory.read_push {a b : Nat} {v : Int} {m : Memory} (h : m.above a = true) :
    (Memory.push a v m).read b = if a = b then v else m.read b := by
  unfold Memory.push
  split
  next hv =>
    split
    next hab => rw [hv, Memory.read_of_above h (le_of_eq hab.symm)]
    next => rfl
  next => rfl

theorem Memory.above_write {a b : Nat} {v : Int} {m : Memory} (h : b < a) (hm : m.above b = true) :
    (m.write a v).above b = true := by
  induction m with
  | nil => exact Memory.above_push h rfl
  | cons c m ih =>
    obtain ⟨k, x⟩ := c
    have hk := Memory.above_cons.1 hm
    unfold Memory.write
    split
    · exact Memory.above_push h hm
    · split
      · exact Memory.above_push h hk.2
      · exact Memory.above_cons.2 ⟨hk.1, ih hk.2⟩

/-- A write keeps the canonical form. -/
theorem Memory.wf_write {m : Memory} (a : Nat) (v : Int) (hm : m.wf = true) :
    (m.write a v).wf = true := by
  induction m with
  | nil => exact Memory.wf_push rfl rfl
  | cons c m ih =>
    obtain ⟨k, x⟩ := c
    have hk := Memory.wf_cons.1 hm
    unfold Memory.write
    split
    next hlt =>
      exact Memory.wf_push (Memory.above_cons.2 ⟨hlt, Memory.above_of_le (le_of_lt hlt) hk.2.1⟩) hm
    next hge =>
      split
      next heq => exact Memory.wf_push (heq ▸ hk.2.1) hk.2.2
      next hne => exact Memory.wf_cons.2 ⟨hk.1, Memory.above_write (by omega) hk.2.1, ih hk.2.2⟩

/-- What any cell reads after a write to a canonical memory. -/
theorem Memory.read_write {m : Memory} (a : Nat) (v : Int) (b : Nat) (hm : m.wf = true) :
    (m.write a v).read b = if a = b then v else m.read b := by
  induction m with
  | nil => exact Memory.read_push rfl
  | cons c m ih =>
    obtain ⟨k, x⟩ := c
    have hk := Memory.wf_cons.1 hm
    unfold Memory.write
    split
    next hlt =>
      exact Memory.read_push (Memory.above_cons.2 ⟨hlt, Memory.above_of_le (le_of_lt hlt) hk.2.1⟩)
    next hge =>
      split
      next heq =>
        subst heq
        rw [Memory.read_push hk.2.1, Memory.read_cons]
        split <;> rfl
      next hne =>
        rw [Memory.read_cons, Memory.read_cons, ih hk.2.2]
        split
        next hkb => rw [if_neg (by omega)]
        next => rfl

theorem Memory.above_ofImage (a b : Nat) (image : List Int) (h : b < a) :
    (Memory.ofImage a image).above b = true := by
  induction image generalizing a with
  | nil => rfl
  | cons v image ih => exact Memory.above_push h (ih (a + 1) (by omega))

/-- The memory of a construction image is canonical. -/
theorem Memory.wf_ofImage (a : Nat) (image : List Int) : (Memory.ofImage a image).wf = true := by
  induction image generalizing a with
  | nil => rfl
  | cons v image ih =>
    exact Memory.wf_push (Memory.above_ofImage (a + 1) a image (by omega)) (ih (a + 1))

/-- The memory of a construction image holds the image from its base on. -/
theorem Memory.read_ofImage (a k : Nat) (image : List Int) :
    (Memory.ofImage a image).read (a + k) = image.getD k 0 := by
  induction image generalizing a k with
  | nil => simp [Memory.ofImage]
  | cons v image ih =>
    rw [Memory.ofImage, Memory.read_push (Memory.above_ofImage (a + 1) a image (by omega))]
    cases k with
    | zero => simp
    | succ k =>
      rw [if_neg (by omega)]
      simpa [Nat.add_assoc, Nat.add_comm 1 k] using ih (a + 1) k

/-! ### Through the state -/

/-- A store keeps the canonical form. -/
theorem State.store_wf (s : State) (a : Nat) (v : Int) (h : s.mem.wf = true) :
    (s.store a v).mem.wf = true := Memory.wf_write a v h

/-- What any cell reads after a store. -/
theorem State.store_cell (s : State) (a : Nat) (v : Int) (b : Nat) (h : s.mem.wf = true) :
    (s.store a v).cell b = if a = b then v else s.cell b := Memory.read_write a v b h

/-- What a successful read says. -/
theorem memRead_ok {s : State} {addr : Int} {v : Int} (h : memRead s addr = .ok v) :
    0 ≤ addr ∧ s.realisation.addressable addr.toNat = true ∧ v = s.cell addr.toNat := by
  unfold memRead at h
  split at h
  · cases h
  · split at h
    · exact ⟨by omega, ‹_›, (Except.ok.inj h).symm⟩
    · cases h

/-- What a successful write says. -/
theorem memWrite_ok {s t : State} {addr : Int} {v : Int} (h : memWrite s addr v = .ok t) :
    0 ≤ addr ∧ s.realisation.addressable addr.toNat = true ∧ s.realisation.cellFits v = true ∧
      t = s.store addr.toNat v := by
  unfold memWrite at h
  split at h
  · cases h
  · split at h
    · cases h
    · split at h
      · cases h
      · rename_i h1 h2 h3
        exact ⟨by omega, by simpa using h2, by simpa using h3, (Except.ok.inj h).symm⟩

/-- When a write succeeds. -/
theorem memWrite_eq_ok {s : State} {addr : Int} {v : Int} (h0 : 0 ≤ addr)
    (ha : s.realisation.addressable addr.toNat = true) (hv : s.realisation.cellFits v = true) :
    memWrite s addr v = .ok (s.store addr.toNat v) := by
  unfold memWrite
  rw [if_neg (by omega), if_neg (by simp [ha]), if_neg (by simp [hv])]

/-- The placed program is canonical where the memory was. -/
theorem State.placeWord_wf (s : State) (w : Int) (h : s.mem.wf = true) :
    (s.placeWord w).mem.wf = true :=
  Memory.wf_write _ _ (Memory.wf_write _ _ (Memory.wf_write _ _ (Memory.wf_write _ _ h)))

/-- Construction leaves a canonical memory. -/
theorem construct_wf (r : Realisation) (image : List Int) (pc0 : Int) (inputs0 : List Int)
    (rb0 : Int) (producer : Bool) : (construct r image pc0 inputs0 rb0 producer).mem.wf = true :=
  Memory.wf_ofImage 0 image

end Sys2Proof.Machine
end

