-- ==== Sys2Proof/Laws/Operands.lean ====
section
/-!
SUPPORT. What the resolver, the input acquisition and the cell reads can answer (30_encoding.md R73,
R74; 42_io.md R121).
-/

namespace Sys2Proof.Machine

@[simp] theorem effectiveAddr_position (s : State) (r : Int) :
    effectiveAddr s { raw := r, mode := .position } = some r := rfl

@[simp] theorem effectiveAddr_immediate (s : State) (r : Int) :
    effectiveAddr s { raw := r, mode := .immediate } = none := rfl

@[simp] theorem effectiveAddr_relative (s : State) (r : Int) :
    effectiveAddr s { raw := r, mode := .relative } = some (s.rb + r) := rfl

/-- An address below an addressable one is addressable. -/
theorem addressable_of_le {r : Realisation} {a b : Nat} (h : r.addressable b = true) (hab : a ≤ b) :
    r.addressable a = true := by
  unfold Realisation.addressable at *
  split <;> simp_all
  omega

@[simp] theorem reference_addressable (a : Nat) : Realisation.reference.addressable a = true := rfl

@[simp] theorem reference_cellFits (v : Int) : Realisation.reference.cellFits v = true := rfl

/-- When a read succeeds. -/
theorem memRead_eq_ok {s : State} {addr : Int} (h0 : 0 ≤ addr)
    (ha : s.realisation.addressable addr.toNat = true) : memRead s addr = .ok (s.cell addr.toNat) := by
  unfold memRead
  rw [if_neg (by omega), if_pos ha]

/-- A parameter that resolves reads its raw value or the addressed cell. -/
theorem readParam_ok {s : State} {p : Param} {v : Int} (h : readParam s p = .ok v) :
    (effectiveAddr s p = none ∧ v = p.raw) ∨
      ∃ addr, effectiveAddr s p = some addr ∧ 0 ≤ addr ∧ v = s.cell addr.toNat := by
  unfold readParam at h
  split at h
  next he => exact .inl ⟨he, (Except.ok.inj h).symm⟩
  next addr he => exact .inr ⟨addr, he, (memRead_ok h).1, (memRead_ok h).2.2⟩

/-- A write target that resolves is a computed address. -/
theorem writeAddr_ok {s : State} {i : Nat} {p : Param} {addr : Int}
    (h : writeAddr s i p = .ok addr) : effectiveAddr s p = some addr := by
  unfold writeAddr at h
  split at h
  next => cases h
  next he => rw [he, Except.ok.inj h]

/-- A write target that does not resolve is in immediate mode. -/
theorem writeAddr_error {s : State} {i : Nat} {p : Param} {c : FaultCause}
    (h : writeAddr s i p = .error c) : p.mode = .immediate ∧ c = .invalidWriteTarget i := by
  unfold writeAddr effectiveAddr at h
  split at h
  next he =>
    refine ⟨?_, (Except.error.inj h).symm⟩
    cases hm : p.mode <;> simp [hm] at he ⊢
  next => cases h

/-- The three cases of input acquisition. -/
theorem acquireInput_cases (d : Int) (s : State) :
    (∃ v rest, s.inq = v :: rest ∧ acquireInput d s = .value v (s.setInq rest)) ∨
      (s.inq = [] ∧ s.producerPresent = true ∧ acquireInput d s = .value d s.drawn) ∨
      (s.inq = [] ∧ s.producerPresent = false ∧ acquireInput d s = .hold) := by
  unfold acquireInput
  cases hq : s.inq with
  | cons v rest => exact .inl ⟨v, rest, rfl, rfl⟩
  | nil => cases hp : s.producerPresent <;> simp

/-- Reading `n` cells gives `n` values, each the cell's. -/
theorem readCells_ok {s : State} {addr : Int} {n : Nat} {vs : List Int}
    (h : readCells s addr n = .ok vs) :
    vs.length = n ∧ ∀ k, k < n → vs.getD k 0 = s.cell (addr + k).toNat := by
  induction n generalizing addr vs with
  | zero =>
    cases h
    exact ⟨rfl, fun k hk => absurd hk (Nat.not_lt_zero k)⟩
  | succ n ih =>
    unfold readCells at h
    split at h
    · cases h
    next v hv =>
      split at h
      · cases h
      next rest hrest =>
        cases h
        obtain ⟨hl, hc⟩ := ih hrest
        refine ⟨by simp [hl], fun k hk => ?_⟩
        cases k with
        | zero => simpa using (memRead_ok hv).2.2
        | succ k =>
          have hk' : (addr + ((k + 1 : Nat) : Int)) = addr + 1 + (k : Int) := by push_cast; ring
          rw [hk']
          simpa using hc k (by omega)

end Sys2Proof.Machine
end

