-- ==== Sys2Proof/Laws/Step.lean ====
section
/-!
SUPPORT. Said once: what an execute stage can answer, what the commit makes of it, and how `exec` and
`step` are made of them. Every invariant and frame is derived from these.
-/

namespace Sys2Proof.Machine

/-! ### Stages -/

/-- All that the shared three-parameter stage can answer. -/
theorem binaryStage_cases (f : Int → Int → Int) (a b dst : Param) (s : State) :
    (∃ c, binaryStage f a b dst s = .fault c) ∨
      ∃ va vb addr t, readParam s a = .ok va ∧ readParam s b = .ok vb ∧
        writeAddr s 2 dst = .ok addr ∧ memWrite s addr (f va vb) = .ok t ∧
        binaryStage f a b dst s = .next (s.pc + 4) false t := by
  unfold binaryStage
  cases ha : readParam s a with
  | error c => exact .inl ⟨c, rfl⟩
  | ok va =>
    cases hb : readParam s b with
    | error c => exact .inl ⟨c, rfl⟩
    | ok vb =>
      cases hd : writeAddr s 2 dst with
      | error c => exact .inl ⟨c, rfl⟩
      | ok addr =>
        cases hw : memWrite s addr (f va vb) with
        | error c => left; exact ⟨c, by simp [bind, Except.bind, hw, Stage.ofExcept]⟩
        | ok t =>
          right
          exact ⟨va, vb, addr, t, rfl, rfl, rfl, hw, by
            simp [bind, Except.bind, pure, Except.pure, hw, Stage.ofExcept]⟩

/-- All that the Input stage can answer. -/
theorem inpStage_cases (d : Int) (dst : Param) (s : State) :
    (∃ c, inpStage d dst s = .fault c) ∨
      (s.inq = [] ∧ s.producerPresent = false ∧ inpStage d dst s = .hold) ∨
      ∃ addr v t u, writeAddr s 0 dst = .ok addr ∧
        ((∃ rest, s.inq = v :: rest ∧ t = s.setInq rest) ∨
          (s.inq = [] ∧ s.producerPresent = true ∧ v = d ∧ t = s.drawn)) ∧
        memWrite t addr v = .ok u ∧ inpStage d dst s = .next (s.pc + 2) false u := by
  unfold inpStage
  cases hd : writeAddr s 0 dst with
  | error c => exact .inl ⟨c, rfl⟩
  | ok addr =>
    by_cases hn : addr < 0
    · exact .inl ⟨.invalidAddress addr, by simp [hn]⟩
    · obtain ⟨v, rest, hq, ha⟩ | ⟨hq, hp, ha⟩ | ⟨hq, hp, ha⟩ := acquireInput_cases d s
      · cases hw : memWrite (s.setInq rest) addr v with
        | error c => exact .inl ⟨c, by simp [hn, ha, hw]⟩
        | ok u => exact .inr (.inr ⟨addr, v, _, u, rfl, .inl ⟨rest, hq, rfl⟩, hw, by simp [hn, ha, hw]⟩)
      · cases hw : memWrite s.drawn addr d with
        | error c => exact .inl ⟨c, by simp [hn, ha, hw]⟩
        | ok u =>
          exact .inr (.inr ⟨addr, d, _, u, rfl, .inr ⟨hq, hp, rfl, rfl⟩, hw, by simp [hn, ha, hw]⟩)
      · exact .inr (.inl ⟨hq, hp, by simp [hn, ha]⟩)

/-- All that the Output stage can answer. -/
theorem outStage_cases (a : Param) (s : State) :
    (∃ c, readParam s a = .error c ∧ outStage a s = .fault c) ∨
      ∃ va, readParam s a = .ok va ∧ outStage a s = .next (s.pc + 2) true (s.emit va) := by
  unfold outStage
  cases readParam s a with
  | error c => exact .inl ⟨c, rfl, rfl⟩
  | ok va => exact .inr ⟨va, rfl, rfl⟩

/-- All that a jump stage can answer: it never changes the pending state. -/
theorem jumpStage_cases (sense : Bool) (a b : Param) (s : State) :
    (∃ c, jumpStage sense a b s = .fault c) ∨
      ∃ va, readParam s a = .ok va ∧
        ((condHolds va = sense ∧ ∃ vb, readParam s b = .ok vb ∧
            jumpStage sense a b s = .next vb false s) ∨
          (condHolds va ≠ sense ∧ jumpStage sense a b s = .next (s.pc + 3) false s)) := by
  unfold jumpStage
  cases ha : readParam s a with
  | error c => exact .inl ⟨c, rfl⟩
  | ok va =>
    by_cases ht : condHolds va = sense
    · cases hb : readParam s b with
      | error c => exact .inl ⟨c, by simp [ht]⟩
      | ok vb => exact .inr ⟨va, rfl, .inl ⟨ht, vb, rfl, by simp [ht]⟩⟩
    · exact .inr ⟨va, rfl, .inr ⟨ht, by simp [ht]⟩⟩

/-- All that the BaseOffset stage can answer. -/
theorem arbStage_cases (a : Param) (s : State) :
    (∃ c, arbStage a s = .fault c) ∨
      ∃ va, readParam s a = .ok va ∧ s.realisation.cellFits (s.rb + va) = true ∧
        arbStage a s = .next (s.pc + 2) false (s.setRb (s.rb + va)) := by
  unfold arbStage
  cases ha : readParam s a with
  | error c => exact .inl ⟨c, rfl⟩
  | ok va =>
    by_cases hf : s.realisation.cellFits (s.rb + va) = true
    · exact .inr ⟨va, rfl, hf, by simp [hf]⟩
    · exact .inl ⟨.capacityValue (s.rb + va), by simp [hf]⟩

/-! ### Commit -/

@[simp] theorem settle_fault (s : State) (c : FaultCause) :
    settle s (.fault c) = (.fault (s.takeFault c).fault, s.takeFault c) := rfl

@[simp] theorem settle_hold (s : State) : settle s .hold = (.held, s) := rfl

@[simp] theorem settle_halted (s t : State) : settle s (.halted t) = (.halt, t.halt) := rfl

theorem settle_next {s : State} {npc : Int} (h : s.realisation.cellFits npc = true) (out : Bool)
    (t : State) : settle s (.next npc out t) = (.stepped out, t.setPc npc) := by
  simp [settle, h]

theorem settle_next_capacity {s : State} {npc : Int} (h : s.realisation.cellFits npc = false)
    (out : Bool) (t : State) :
    settle s (.next npc out t) =
      (.fault (s.takeFault (.capacityValue npc)).fault, s.takeFault (.capacityValue npc)) := by
  simp [settle, h, faultStep]

/-- All that a commit can make of a stage: the whole pending state, a halt, a hold, or a fault entry. -/
theorem settle_cases (s : State) (r : Stage) :
    (∃ npc out t, r = .next npc out t ∧ s.realisation.cellFits npc = true ∧
        settle s r = (.stepped out, t.setPc npc)) ∨
      (∃ t, r = .halted t ∧ settle s r = (.halt, t.halt)) ∨
      (r = .hold ∧ settle s r = (.held, s)) ∨
      ∃ c, settle s r = (.fault (s.takeFault c).fault, s.takeFault c) := by
  cases r with
  | next npc out t =>
    by_cases h : s.realisation.cellFits npc = true
    · exact .inl ⟨npc, out, t, rfl, h, settle_next h out t⟩
    · exact .inr (.inr (.inr ⟨_, settle_next_capacity (by simpa using h) out t⟩))
  | halted t => exact .inr (.inl ⟨t, rfl, rfl⟩)
  | hold => exact .inr (.inr (.inl ⟨rfl, rfl⟩))
  | fault c => exact .inr (.inr (.inr ⟨c, rfl⟩))

/-! ### What an instruction can do, said once -/

/-- Every way an execute stage can complete: the instruction, the next `pc`, whether it emits, and the
pending state it commits. -/
inductive Completes (d : Int) (s : State) : Instr → Int → Bool → State → Prop where
  /-- A three-parameter instruction stores its result. -/
  | store (i : Instr) (a : Nat) (v : Int) (hi : i.width = 4) (ha : storeAddr i s = some a)
      (hin : s.realisation.addressable a = true) (hv : s.realisation.cellFits v = true) :
      Completes d s i (s.pc + 4) false (s.store a v)
  /-- Input stores the front of the queue. -/
  | queued (dst : Param) (a : Nat) (v : Int) (rest : List Int) (hq : s.inq = v :: rest)
      (ha : storeAddr (.inp dst) s = some a) (hin : s.realisation.addressable a = true)
      (hv : s.realisation.cellFits v = true) :
      Completes d s (.inp dst) (s.pc + 2) false ((s.setInq rest).store a v)
  /-- Input stores the producer's answer. -/
  | drawn (dst : Param) (a : Nat) (hq : s.inq = []) (hp : s.producerPresent = true)
      (ha : storeAddr (.inp dst) s = some a) (hin : s.realisation.addressable a = true)
      (hv : s.realisation.cellFits d = true) :
      Completes d s (.inp dst) (s.pc + 2) false (s.drawn.store a d)
  /-- Output appends its operand. -/
  | emit (p : Param) (v : Int) (hp : readParam s p = .ok v) :
      Completes d s (.out p) (s.pc + 2) true (s.emit v)
  /-- A jump is taken. -/
  | jump (i : Instr) (a b : Param) (target : Int) (hi : i = .jt a b ∨ i = .jf a b)
      (hb : readParam s b = .ok target) : Completes d s i target false s
  /-- A jump is not taken. -/
  | fall (i : Instr) (a b : Param) (hi : i = .jt a b ∨ i = .jf a b) :
      Completes d s i (s.pc + 3) false s
  /-- BaseOffset moves the relative base. -/
  | rebase (p : Param) (v : Int) (hp : readParam s p = .ok v)
      (hv : s.realisation.cellFits (s.rb + v) = true) :
      Completes d s (.arb p) (s.pc + 2) false (s.setRb (s.rb + v))

theorem binaryStage_completes (d : Int) (f : Int → Int → Int) (a b dst : Param) (s : State)
    (i : Instr) (hw : i.width = 4) (ht : i.target = some (2, dst)) :
    (∃ c, binaryStage f a b dst s = .fault c) ∨
      ∃ npc out t, Completes d s i npc out t ∧ binaryStage f a b dst s = .next npc out t := by
  obtain h | ⟨va, vb, addr, t, _, _, hd, hm, h⟩ := binaryStage_cases f a b dst s
  · exact .inl h
  · obtain ⟨_, ha, hv, rfl⟩ := memWrite_ok hm
    exact .inr ⟨_, _, _, .store i addr.toNat _ hw (by simp [storeAddr, ht, hd]) ha hv, h⟩

theorem jumpStage_completes (d : Int) (sense : Bool) (a b : Param) (s : State) (i : Instr)
    (hi : i = .jt a b ∨ i = .jf a b) :
    (∃ c, jumpStage sense a b s = .fault c) ∨
      ∃ npc out t, Completes d s i npc out t ∧ jumpStage sense a b s = .next npc out t := by
  obtain h | ⟨va, _, ⟨_, vb, hb, h⟩ | ⟨_, h⟩⟩ := jumpStage_cases sense a b s
  · exact .inl h
  · exact .inr ⟨_, _, _, .jump i a b vb hi hb, h⟩
  · exact .inr ⟨_, _, _, .fall i a b hi, h⟩

/-- All that the execute stage of any instruction can answer. -/
theorem execute_cases (d : Int) (i : Instr) (s : State) :
    (∃ c, execute d i s = .fault c) ∨
      (∃ dst, i = .inp dst ∧ s.inq = [] ∧ s.producerPresent = false ∧ execute d i s = .hold) ∨
      (i = .hlt ∧ execute d i s = .halted s) ∨
      ∃ npc out t, Completes d s i npc out t ∧ execute d i s = .next npc out t := by
  have weaken : ∀ r : Stage, ((∃ c, r = .fault c) ∨ ∃ npc out t, Completes d s i npc out t ∧
      r = .next npc out t) → (∃ c, r = .fault c) ∨
      (∃ dst, i = .inp dst ∧ s.inq = [] ∧ s.producerPresent = false ∧ r = .hold) ∨
      (i = .hlt ∧ r = .halted s) ∨ ∃ npc out t, Completes d s i npc out t ∧ r = .next npc out t :=
    fun r h => h.imp_right fun h => .inr (.inr h)
  cases i with
  | add a b dst => exact weaken _ (binaryStage_completes d _ a b dst s _ rfl rfl)
  | mul a b dst => exact weaken _ (binaryStage_completes d _ a b dst s _ rfl rfl)
  | lt a b dst => exact weaken _ (binaryStage_completes d _ a b dst s _ rfl rfl)
  | eq a b dst => exact weaken _ (binaryStage_completes d _ a b dst s _ rfl rfl)
  | jt a b => exact weaken _ (jumpStage_completes d _ a b s _ (.inl rfl))
  | jf a b => exact weaken _ (jumpStage_completes d _ a b s _ (.inr rfl))
  | hlt => exact .inr (.inr (.inl ⟨rfl, rfl⟩))
  | out a =>
    obtain ⟨c, _, h⟩ | ⟨va, hv, h⟩ := outStage_cases a s
    · exact .inl ⟨c, h⟩
    · exact .inr (.inr (.inr ⟨_, _, _, .emit a va hv, h⟩))
  | arb a =>
    obtain h | ⟨va, hv, hf, h⟩ := arbStage_cases a s
    · exact .inl h
    · exact .inr (.inr (.inr ⟨_, _, _, .rebase a va hv hf, h⟩))
  | inp dst =>
    obtain h | ⟨hq, hp, h⟩ | ⟨addr, v, t, u, hd, ho, hm, h⟩ := inpStage_cases d dst s
    · exact .inl h
    · exact .inr (.inl ⟨dst, rfl, hq, hp, h⟩)
    · have hs : storeAddr (.inp dst) s = some addr.toNat := by simp [storeAddr, Instr.target, hd]
      obtain ⟨_, ha, hv, rfl⟩ := memWrite_ok hm
      obtain ⟨rest, hq, rfl⟩ | ⟨hq, hp, rfl, rfl⟩ := ho
      · exact .inr (.inr (.inr ⟨_, _, _, .queued dst _ v rest hq hs ha hv, h⟩))
      · exact .inr (.inr (.inr ⟨_, _, _, .drawn dst _ hq hp hs ha hv, h⟩))

/-- No completion touches the status, the fault record, `pc` or what is constant. -/
theorem Completes.keeps {d npc : Int} {s t : State} {i : Instr} {out : Bool}
    (h : Completes d s i npc out t) :
    t.status = s.status ∧ t.fault = s.fault ∧ t.pc = s.pc ∧ t.imageLen = s.imageLen ∧
      t.producerPresent = s.producerPresent ∧ t.realisation = s.realisation := by
  cases h <;> simp

/-- All that a step can do, for any producer answer. -/
theorem stepWith_cases (d : Int) (s : State) :
    (s.status = .halted ∧ stepWith d s = (.halt, s)) ∨
      (s.status = .faulted ∧ stepWith d s = (.fault s.fault, s)) ∨
      (s.status = .running ∧ ∃ c, stepWith d s = (.fault (s.takeFault c).fault, s.takeFault c)) ∨
      ∃ i, s.status = .running ∧ fetch s = .ok i ∧
        ((∃ dst, i = .inp dst ∧ s.inq = [] ∧ s.producerPresent = false ∧
            stepWith d s = (.held, s)) ∨
          (i = .hlt ∧ stepWith d s = (.halt, s.halt)) ∨
          ∃ npc out t, Completes d s i npc out t ∧ s.realisation.cellFits npc = true ∧
            stepWith d s = (.stepped out, t.setPc npc)) := by
  unfold stepWith
  cases hs : s.status with
  | halted => exact .inl ⟨rfl, rfl⟩
  | faulted => exact .inr (.inl ⟨rfl, rfl⟩)
  | running =>
    cases hf : fetch s with
    | error c => exact .inr (.inr (.inl ⟨rfl, c, rfl⟩))
    | ok i =>
      dsimp only
      obtain ⟨c, h⟩ | ⟨dst, hi, hq, hp, h⟩ | ⟨hi, h⟩ | ⟨npc, out, t, hc, h⟩ := execute_cases d i s
      · exact .inr (.inr (.inl ⟨rfl, c, by rw [h]; rfl⟩))
      · exact .inr (.inr (.inr ⟨i, rfl, rfl, .inl ⟨dst, hi, hq, hp, by rw [h]; rfl⟩⟩))
      · exact .inr (.inr (.inr ⟨i, rfl, rfl, .inr (.inl ⟨hi, by rw [h]; rfl⟩)⟩))
      · by_cases hn : s.realisation.cellFits npc = true
        · exact .inr (.inr (.inr ⟨i, rfl, rfl, .inr (.inr ⟨npc, out, t, hc, hn, by
            rw [h, settle_next hn]⟩)⟩))
        · exact .inr (.inr (.inl ⟨rfl, _, by
            rw [h, settle_next_capacity (by simpa using hn)]⟩))

/-! ### What a storing instruction does when nothing faults -/

theorem binaryResult_eq_some {f : Int → Int → Int} {a b : Param} {s : State} {v : Int}
    (h : binaryResult f a b s = some v) :
    ∃ va vb, readParam s a = .ok va ∧ readParam s b = .ok vb ∧ f va vb = v := by
  unfold binaryResult at h
  cases ha : readParam s a with
  | error c => simp [ha] at h
  | ok va =>
    cases hb : readParam s b with
    | error c => simp [ha, hb] at h
    | ok vb => exact ⟨va, vb, rfl, rfl, by simpa [ha, hb] using h⟩

theorem storeAddr_eq_some {i : Instr} {k : Nat} {dst : Param} {s : State} {a : Nat}
    (ht : i.target = some (k, dst)) (h : storeAddr i s = some a) :
    ∃ addr, writeAddr s k dst = .ok addr ∧ addr.toNat = a := by
  cases hd : writeAddr s k dst with
  | error c => simp [storeAddr, ht, hd] at h
  | ok addr => exact ⟨addr, rfl, by simpa [storeAddr, ht, hd] using h⟩

theorem binaryStage_stores {f : Int → Int → Int} {a b dst : Param} {s : State} {addr v : Int}
    (hv : binaryResult f a b s = some v) (hd : writeAddr s 2 dst = .ok addr) (h0 : 0 ≤ addr)
    (hin : s.realisation.addressable addr.toNat = true) (hf : s.realisation.cellFits v = true) :
    binaryStage f a b dst s = .next (s.pc + 4) false (s.store addr.toNat v) := by
  obtain ⟨va, vb, ha, hb, rfl⟩ := binaryResult_eq_some hv
  simp [binaryStage, ha, hb, hd, memWrite_eq_ok h0 hin hf, Stage.ofExcept, bind, Except.bind, pure,
    Except.pure]

/-- The value Input stores is the one it acquires, and acquiring it leaves the memory alone. -/
theorem acquireInput_storeValue {d : Int} {dst : Param} {s : State} {v : Int}
    (h : storeValue d (.inp dst) s = some v) :
    ∃ u, acquireInput d s = .value v u ∧ (u = s.drawn ∨ ∃ rest, u = s.setInq rest) := by
  simp only [storeValue] at h
  obtain ⟨w, rest, hq, ha⟩ | ⟨hq, hp, ha⟩ | ⟨hq, hp, _⟩ := acquireInput_cases d s
  · simp only [hq, Option.some.injEq] at h
    subst h
    exact ⟨_, ha, .inr ⟨rest, rfl⟩⟩
  · simp only [hq, hp, if_true, Option.some.injEq] at h
    subst h
    exact ⟨_, ha, .inl rfl⟩
  · simp [hq, hp] at h

/-- A storing instruction whose value is `storeValue`, whose address is `storeAddr` and which nothing
stops: it stores the value there and goes on after itself. What it takes from the queue or the
producer is the only other change of the pending state. Address 0 is left out because `storeAddr`
does not tell it from a negative one. -/
theorem execute_stores {d : Int} {i : Instr} {s : State} {a : Nat} {v : Int}
    (ha : storeAddr i s = some a) (h0 : 0 < a) (hv : storeValue d i s = some v)
    (hin : s.realisation.addressable a = true) (hf : s.realisation.cellFits v = true) :
    ∃ u, execute d i s = .next (s.pc + i.width) false (u.store a v) ∧
      (u = s ∨ u = s.drawn ∨ ∃ rest, u = s.setInq rest) := by
  have binary : ∀ (f : Int → Int → Int) (p q dst : Param), i.target = some (2, dst) →
      binaryResult f p q s = some v →
      binaryStage f p q dst s = .next (s.pc + 4) false (s.store a v) := by
    intro f p q dst ht hr
    obtain ⟨addr, hd, rfl⟩ := storeAddr_eq_some ht ha
    exact binaryStage_stores hr hd (by omega) hin hf
  cases i with
  | add p q dst => exact ⟨s, binary _ p q dst rfl hv, .inl rfl⟩
  | mul p q dst => exact ⟨s, binary _ p q dst rfl hv, .inl rfl⟩
  | lt p q dst => exact ⟨s, binary _ p q dst rfl (by simpa [storeValue, truthCell] using hv), .inl rfl⟩
  | eq p q dst => exact ⟨s, binary _ p q dst rfl (by simpa [storeValue, truthCell] using hv), .inl rfl⟩
  | inp dst =>
    obtain ⟨addr, hd, rfl⟩ := storeAddr_eq_some (k := 0) rfl ha
    have hn : ¬ addr < 0 := by omega
    obtain ⟨u, hq, hu⟩ := acquireInput_storeValue hv
    have hr : u.realisation = s.realisation := by
      obtain rfl | ⟨_, rfl⟩ := hu <;> rfl
    have hw := memWrite_eq_ok (s := u) (addr := addr) (v := v) (by omega) (hr ▸ hin) (hr ▸ hf)
    refine ⟨u, ?_, .inr hu⟩
    simp only [execute, inpStage, hd, hn, hq, hw, if_false]
    rfl
  | out p => cases hv
  | jt p q => cases hv
  | jf p q => cases hv
  | arb p => cases hv
  | hlt => cases hv

/-! ### The dispatch -/

/-- `exec` commits the execute stage under the producer answer of log 4. -/
theorem exec_eq_commit (i : Instr) (s : State) :
    exec i s = commit s (execute (Config.producerAnswer s.draws) i s) := by
  cases i <;> rfl

/-- A running machine whose fetch succeeds executes the decoded instruction. -/
theorem step_of_fetch {s : State} {i : Instr} (hr : s.status = .running) (hf : fetch s = .ok i) :
    step s = exec i s := by
  simp [step, hr, hf]

/-- A running machine whose fetch faults takes the fault. -/
theorem step_of_fetch_error {s : State} {c : FaultCause} (hr : s.status = .running)
    (hf : fetch s = .error c) : step s = .next (s.takeFault c) := by
  simp [step, hr, hf, commit]

/-- What a successful fetch says of `pc`. -/
theorem fetch_ok {s : State} {i : Instr} (h : fetch s = .ok i) :
    0 ≤ s.pc ∧ s.pc < s.imageLen ∧ decodeAt s = .ok i := by
  unfold fetch at h
  split at h
  · cases h
  · split at h
    · cases h
    · exact ⟨by omega, by omega, h⟩

/-- What a successful decode reads. -/
theorem decodeAt_ok {s : State} {i : Instr} (h : decodeAt s = .ok i) :
    ∃ hd raws, decodeHead (s.cell s.pc.toNat) = .ok hd ∧
      readCells s (s.pc + 1) hd.op.nparams = .ok raws ∧ i = assemble hd raws := by
  unfold decodeAt at h
  split at h
  · cases h
  next w hw =>
    split at h
    · cases h
    next hd hh =>
      split at h
      · cases h
      next raws hraws =>
        exact ⟨hd, raws, by rw [← (memRead_ok hw).2.2]; exact hh, hraws, (Except.ok.inj h).symm⟩

end Sys2Proof.Machine
end

