-- ==== Sys2Proof/Laws/HostPort.lean ====
section
/-!
SUPPORT. The host port said once: what the three tests of RUN_UNTIL_OUTPUT say, what a host that feeds
a held command does, and what one unfolding of `Port.serve` says (47_run_control.md R173 to R180).
-/

namespace Sys2Proof.Machine

theorem poll_fault {s : State} {rec : Option FaultRecord} (h : poll s = .fault rec) :
    s.status = .faulted ∧ s.fault = rec := by
  unfold poll at h
  split at h
  · cases h; exact ⟨‹_›, rfl⟩
  · split at h <;> cases h
  · split at h <;> cases h

theorem poll_value {s t : State} {v : Int} (h : poll s = .value v t) :
    s.status ≠ .faulted ∧ ∃ rest, s.outq = v :: rest ∧ t = s.setOutq rest := by
  unfold poll at h
  split at h
  · cases h
  · split at h
    · cases h; exact ⟨by simp_all, _, ‹_›, rfl⟩
    · cases h
  · split at h
    · cases h; exact ⟨by simp_all, _, ‹_›, rfl⟩
    · cases h

theorem poll_noValue {s : State} (h : poll s = .noValue) : s.status = .halted ∧ s.outq = [] := by
  unfold poll at h
  split at h
  · cases h
  · split at h
    · cases h
    · exact ⟨‹_›, ‹_›⟩
  · split at h <;> cases h

theorem poll_again {s : State} (h : poll s = .again) : s.status = .running ∧ s.outq = [] := by
  unfold poll at h
  split at h
  · cases h
  · split at h <;> cases h
  · split at h
    · cases h
    · exact ⟨‹_›, ‹_›⟩

/-- The host of `Port.feed` pushes one value into a held command and does nothing otherwise. -/
theorem Port.feed_some {p q : Port} {vs rest : List Int} (h : p.feed vs = some (q, rest)) :
    (p.held = true ∧ ∃ v, vs = v :: rest ∧ q = { p with machine := p.machine.pushInput v }) ∨
      (p.held = false ∧ vs = rest ∧ q = p) := by
  unfold Port.feed at h
  split at h
  next hh =>
    cases vs with
    | nil => cases h
    | cons v vs => cases h; exact .inl ⟨hh, v, rfl, rfl⟩
  next hh =>
    cases h
    exact .inr ⟨by simpa using hh, rfl, rfl⟩

/-- One iteration of a command that completes: the reply of this tick, or one of a later one. -/
theorem Port.serve_succ {fuel : Nat} {vs : List Int} {p : Port} {r : Reply × Port × List Int}
    (h : Port.serve (fuel + 1) vs p = some r) :
    (∃ q rep, p.tick = (q, some rep) ∧ r = (rep, q, vs)) ∨
      ∃ q q' rest, p.tick = (q, none) ∧ q.feed vs = some (q', rest) ∧
        Port.serve fuel rest q' = some r := by
  unfold Port.serve at h
  split at h
  next q rep hq => cases h; exact .inl ⟨q, rep, hq, rfl⟩
  next q hq =>
    split at h
    · cases h
    next q' rest hf => exact .inr ⟨q, q', rest, hq, hf, h⟩

/-- A tick of a pending RUN: it goes on after a step or a hold, and answers at a halt or a fault. -/
theorem Port.tick_run (s : State) :
    (∃ o t, stepWith (Config.producerAnswer s.draws) s = (o, t) ∧
        ((∃ out, o = .stepped out) ∨ o = .held) ∧
        Port.tick ⟨s, some .run⟩ = (⟨t, some .run⟩, none)) ∨
      (∃ t, stepWith (Config.producerAnswer s.draws) s = (.halt, t) ∧
        Port.tick ⟨s, some .run⟩ = (⟨t, none⟩, some (.done t.outq))) ∨
      ∃ rec t, stepWith (Config.producerAnswer s.draws) s = (.fault rec, t) ∧
        Port.tick ⟨s, some .run⟩ = (⟨t, none⟩, some (.fault rec)) := by
  unfold Port.tick Port.advance
  dsimp only
  cases stepWith (Config.producerAnswer s.draws) s with
  | mk o t =>
    cases o with
    | stepped out => exact .inl ⟨_, t, rfl, .inl ⟨out, rfl⟩, rfl⟩
    | held => exact .inl ⟨_, t, rfl, .inr rfl, rfl⟩
    | halt => exact .inr (.inl ⟨t, rfl, rfl⟩)
    | fault rec => exact .inr (.inr ⟨rec, t, rfl, rfl⟩)

end Sys2Proof.Machine
end

