-- ==== Sys2Proof/Laws/PerInstr.lean ====
section
/-!
SUPPORT. The per-instruction family Width: an instruction has the parameters its opcode says and its
encoding is as long as its width (30_encoding.md R60, R63, R64).
-/

namespace Sys2Proof.Laws.Width

/-- The parameter count is the opcode's and the encoding has `width` cells. -/
def Statement (i : Instr) : Prop :=
  i.params.length = i.opcode.nparams ∧ (encode i).length = i.width

theorem add (a b dst : Param) : Statement (.add a b dst) := ⟨rfl, rfl⟩
theorem mul (a b dst : Param) : Statement (.mul a b dst) := ⟨rfl, rfl⟩
theorem inp (dst : Param) : Statement (.inp dst) := ⟨rfl, rfl⟩
theorem out (a : Param) : Statement (.out a) := ⟨rfl, rfl⟩
theorem jt (a b : Param) : Statement (.jt a b) := ⟨rfl, rfl⟩
theorem jf (a b : Param) : Statement (.jf a b) := ⟨rfl, rfl⟩
theorem lt (a b dst : Param) : Statement (.lt a b dst) := ⟨rfl, rfl⟩
theorem eq (a b dst : Param) : Statement (.eq a b dst) := ⟨rfl, rfl⟩
theorem arb (a : Param) : Statement (.arb a) := ⟨rfl, rfl⟩
theorem hlt : Statement .hlt := ⟨rfl, rfl⟩

end Sys2Proof.Laws.Width
end

