-- ==== Sys2Proof/Tests/Slice0.lean ====
section
/-!
SUPPORT. The model's own tests. Expected values come from spec/95_test_vectors.md and the examples of
the instruction rules, each named beside its test. Then one witness for the hypotheses of every
statement of Certificates/Slice0/Obligations.lean that has any.
-/

namespace Sys2Proof.Tests
open Machine

/-- A fresh machine of the reference realisation on an image. -/
def machine (image : List Int) (inputs0 : List Int := []) (rb0 : Int := 0) (pc0 : Int := 0)
    (producer : Bool := false) : State :=
  construct Realisation.reference image pc0 inputs0 rb0 producer

/-- A fresh machine with 8-bit cells and 16 of them. -/
def small (image : List Int) (inputs0 : List Int := []) : State :=
  construct { cellBits := some 8, memCapacity := some 16 } image 0 inputs0 0 false

/-- One step, and what `f` reads of the state after it. -/
def after {α : Type} (s : State) (f : State → α) : Option α :=
  match step s with
  | .next t => some (f t)
  | .fault _ => none
  | .refused _ => none

/-- A decoded instruction, `none` for a decode error. -/
def decoded (w : Int) (raws : List Int) : Option Instr :=
  match decode w raws with
  | .ok i => some i
  | .error _ => none

/-- The decode error of a word, if it has one. -/
def decodeFault (w : Int) : Option DecodeError :=
  match decodeHead w with
  | .ok _ => none
  | .error e => some e

/-! ## Well-formed instructions: a term for each check that the check refuses -/

theorem test_immediate_target_refused :
    Instr.targetLegal (.add ⟨1, .immediate⟩ ⟨1, .immediate⟩ ⟨1, .immediate⟩) = false := by decide

theorem test_immediate_input_target_refused : Instr.targetLegal (.inp ⟨0, .immediate⟩) = false := by
  decide

theorem test_raw_outside_the_cell_refused :
    Instr.cellsFit { cellBits := some 8, memCapacity := none } (.out ⟨128, .position⟩) = false := by
  decide

theorem test_word_outside_the_cell_refused :
    Instr.cellsFit { cellBits := some 8, memCapacity := none } (.out ⟨0, .relative⟩) = false := by
  decide

theorem test_wellFormed_accepts :
    Instr.wellFormed { cellBits := some 8, memCapacity := none } (.out ⟨127, .immediate⟩) = true := by
  decide

/-! ## Decoding (95_test_vectors.md V1; the words of the instruction rules' examples) -/

theorem test_decode_add : decoded 1101 [100, -1, 4] =
    some (.add ⟨100, .immediate⟩ ⟨-1, .immediate⟩ ⟨4, .position⟩) := by decide

theorem test_decode_add_ignores_digit_5 : decoded 100001 [7, 8, 9] =
    some (.add ⟨7, .position⟩ ⟨8, .position⟩ ⟨9, .position⟩) := by decide

theorem test_decode_mul : decoded 1002 [4, 3, 4] =
    some (.mul ⟨4, .position⟩ ⟨3, .immediate⟩ ⟨4, .position⟩) := by decide

theorem test_decode_in : decoded 203 [-1] = some (.inp ⟨-1, .relative⟩) := by decide

theorem test_decode_out : decoded 10104 [-5] = some (.out ⟨-5, .immediate⟩) := by decide

theorem test_decode_jt : decoded 1205 [2, 16] = some (.jt ⟨2, .relative⟩ ⟨16, .immediate⟩) := by decide

theorem test_decode_jf : decoded 1106 [0, 4] = some (.jf ⟨0, .immediate⟩ ⟨4, .immediate⟩) := by decide

theorem test_decode_lt : decoded 21107 [0, 1, 2] =
    some (.lt ⟨0, .immediate⟩ ⟨1, .immediate⟩ ⟨2, .relative⟩) := by decide

theorem test_decode_eq : decoded 1108 [8, 8, 5] =
    some (.eq ⟨8, .immediate⟩ ⟨8, .immediate⟩ ⟨5, .position⟩) := by decide

theorem test_decode_arb : decoded 209 [1] = some (.arb ⟨1, .relative⟩) := by decide

theorem test_decode_hlt : decoded 1099 [] = some .hlt := by decide

theorem test_decode_hlt_negative : decoded (-1) [] = some .hlt := by decide

theorem test_decode_bad_mode : decodeFault 91101 = some (.badMode 91101 2 9) := by decide

theorem test_decode_bad_mode_negative : decodeFault (-99) = some (.badMode (-99) 0 9) := by decide

theorem test_decode_bad_opcode : decodeFault 100 = some (.badOpcode 100 0) := by decide

theorem test_decode_bad_opcode_negative : decodeFault (-5) = some (.badOpcode (-5) 95) := by decide

/-! ## The host's probes (log 11): the table's row OUT, bits 00000100 -/

theorem test_table_word_out : decodeTableWord 8 4 = some (.out ⟨0, .position⟩) := by decide

theorem test_placed_word_is_fetched :
    fetch (State.reset.withFetchWord 8 4) = .ok (.out ⟨0, .position⟩) := rfl

theorem test_placed_word_runs :
    step (State.reset.withFetchWord 8 4) = exec (.out ⟨0, .position⟩) (State.reset.withFetchWord 8 4) :=
  rfl

theorem test_placed_out_emits : after (State.reset.withFetchWord 8 4) (fun t => (t.outq, t.pc)) =
    some ([4], 2) := by decide

/-! ## One step of each instruction -/

/-- V2: both sources and the destination are one cell. -/
theorem test_add_aliased : after (machine [1, 5, 5, 5, 99, 21]) (fun t => (t.cell 5, t.pc)) =
    some (42, 4) := by decide

/-- V2: no wrap at 64 bits. -/
theorem test_add_exact : after (machine [1101, 9223372036854775807, 1, 5, 99, 0]) (fun t => t.cell 5) =
    some 9223372036854775808 := by decide

/-- V2: the product of two negatives. -/
theorem test_mul_signs : after (machine [1102, -4, -5, 5, 99, 0]) (fun t => t.cell 5) = some 20 := by
  decide

/-- V2: an exact product; the destination is the instruction's own word. -/
theorem test_mul_own_word : after (machine [2, 5, 5, 0, 99, -3]) (fun t => (t.cell 0, t.pc)) =
    some (9, 4) := by decide

/-- V3: the queue loses its front. -/
theorem test_in_pops : after (machine [3, 0, 99] [1, 2]) (fun t => (t.cell 0, t.inq, t.pc)) =
    some (1, [2], 2) := by decide

/-- V3: the target is checked before the pop. -/
theorem test_in_immediate_target : after (machine [103, 0, 99] [1]) (fun t => (t.inq, t.fault)) =
    some ([1], some ⟨.invalidWriteTarget 0, 0⟩) := by decide

/-- V3: a negative output value. -/
theorem test_out_immediate : after (machine [104, -5, 99]) (fun t => (t.outq, t.pc)) =
    some ([-5], 2) := by decide

/-- V3: nothing is emitted at a negative address. -/
theorem test_out_negative_address : after (machine [204, -1, 99]) (fun t => (t.outq, t.fault)) =
    some ([], some ⟨.invalidAddress (-1), 0⟩) := by decide

/-- V4: a negative condition is true. -/
theorem test_jt_negative_condition : after (machine [1105, -1, 7, 4, 0, 0, 0, 99]) (fun t => t.pc) =
    some 7 := by decide

/-- V4: a jump not taken does not read its target. -/
theorem test_jt_lazy : after (machine [105, 0, -1, 99]) (fun t => (t.pc, t.status)) =
    some (3, .running) := by decide

/-- V4: the condition 0 jumps. -/
theorem test_jf_taken : after (machine [1106, 0, 4, 0, 99]) (fun t => t.pc) = some 4 := by decide

/-- V4: any other condition does not. -/
theorem test_jf_not_taken : after (machine [1106, 1, 4, 99, 99]) (fun t => t.pc) = some 3 := by decide

/-- V5: a signed comparison. -/
theorem test_lt_signed : after (machine [1107, -5, 3, 5, 99, 0]) (fun t => t.cell 5) = some 1 := by
  decide

/-- V5: equal operands are not below each other. -/
theorem test_lt_equal : after (machine [1107, 3, 3, 5, 99, 0]) (fun t => t.cell 5) = some 0 := by
  decide

/-- V5: equal operands. -/
theorem test_eq_equal : after (machine [1108, 8, 8, 5, 99, 0]) (fun t => t.cell 5) = some 1 := by
  decide

/-- V5: the sign counts, and the old cell is replaced. -/
theorem test_eq_sign : after (machine [1108, 8, -8, 5, 99, 7]) (fun t => t.cell 5) = some 0 := by
  decide

/-- V6: a mode 2 operand is read under the old base. -/
theorem test_arb_old_base : after (machine [209, 1, 0] [] 1) (fun t => t.rb) = some 1 := by decide

/-- 45_base.md R150's example, from rb = 2000. -/
theorem test_arb_adds : after (machine [109, 19] [] 2000) (fun t => (t.rb, t.pc)) =
    some (2019, 2) := by decide

/-- S1: Halt leaves `pc` at its word; digit 2 of the word is ignored. -/
theorem test_hlt : after (machine [1099]) (fun t => (t.pc, t.status, t.fault)) =
    some (0, .halted, none) := by decide

/-! ## Fetch, faults and the status gate -/

/-- V8: a fetch below 0 and a fetch at `L`. -/
theorem test_fetch_negative : after (machine [99] [] 0 (-1)) (fun t => t.fault) =
    some (some ⟨.invalidAddress (-1), -1⟩) := by decide

theorem test_fetch_past_image : after (machine [99] [] 0 1) (fun t => t.fault) =
    some (some ⟨.outOfBounds 1, 1⟩) := by decide

/-- S9: `5` on a one-cell image reads its parameters beyond `L` and jumps to 5. -/
theorem test_parameters_beyond_image : after (machine [5]) (fun t => t.pc) = some 5 := by decide

/-- V8: decode faults come before the write-target check. -/
theorem test_decode_before_target : after (machine [31101, 1, 1, -1, 99]) (fun t => t.fault) =
    some (some ⟨.decode (.badMode 31101 2 3), 0⟩) := by decide

/-- V8: operand `a` is resolved before the target. -/
theorem test_operand_before_target : after (machine [2201, -9, 0, -1, 99]) (fun t => t.fault) =
    some (some ⟨.invalidAddress (-9), 0⟩) := by decide

/-- R202's example: code 2, parameter 2. -/
theorem test_target_fault_code : after (machine [11101, 1, 1, 1, 99])
    (fun t => t.fault.map (fun r => (r.code, r.detail))) = some (some (2, .param 2)) := by decide

/-- V3: the hold reports `Held` and changes nothing. -/
theorem test_hold : stepWith 17 (machine [3, 5, 4, 5, 99, 0]) =
    (.held, machine [3, 5, 4, 5, 99, 0]) := by decide

/-- V3: the producer's answer is written when the queue is empty. -/
theorem test_producer : (stepWith 42 (machine [3, 5, 4, 5, 99, 0] [] 0 0 true)).2.cell 5 = 42 := by
  decide

/-- V3: the queue is used before the producer. -/
theorem test_queue_before_producer :
    (stepWith 42 (machine [3, 5, 4, 5, 99, 0] [1] 0 0 true)).2.cell 5 = 1 := by decide

/-- 8-bit cells: 100 + 100 is outside -128 to 127 (20_memory.md R55; log 7). -/
theorem test_capacity_value : after (small [1, 6, 6, 7, 99, 0, 100]) (fun t => t.fault) =
    some (some ⟨.capacityValue 200, 0⟩) := by decide

/-- 16 cells: cell 16 does not exist (20_memory.md R55). -/
theorem test_capacity_address : after (small [4, 16, 99]) (fun t => t.fault) =
    some (some ⟨.capacityAddr 16, 0⟩) := by decide

/-- V9: MEM_READ(-1) is refused and changes nothing. -/
theorem test_host_read_refused : (Port.mk (machine [99]) none).accept (.memRead (-1)) =
    some (⟨machine [99], none⟩, some (.refused (.invalidAddress (-1)))) := by decide

/-- S5: a cell never written reads 0. -/
theorem test_host_read_unwritten : ((Port.mk (machine [99]) none).accept (.memRead 10000)).map
    (fun q => q.2) = some (some (.value 0)) := by decide

/-! ## Witnesses: the hypotheses of each statement are met

One theorem per statement with hypotheses; a statement with several clauses has a witness for each. -/

theorem witness_DigitsAboveTheModesAreIgnored :
    decodeHead 1099 = .ok ⟨.hlt, []⟩ ∧ decodeHead 22207 = .ok ⟨.lt, [.relative, .relative, .relative]⟩ :=
  ⟨rfl, rfl⟩

theorem witness_CanonicalWordReencodes :
    decodeHead 22207 = .ok ⟨.lt, [.relative, .relative, .relative]⟩ ∧
      CanonicalWord 22207 ⟨.lt, [.relative, .relative, .relative]⟩ ∧ CanonicalWord 99 ⟨.hlt, []⟩ :=
  ⟨rfl, by unfold CanonicalWord; decide, by unfold CanonicalWord; decide⟩

theorem witness_ModesAreTheDigits : decodeHead 1205 = .ok ⟨.jt, [.relative, .immediate]⟩ := rfl

theorem witness_BadOpcodeExactly :
    (machine [100]).status = .running ∧ 0 ≤ (machine [100]).pc ∧ (machine [100]).pc < (machine [100]).imageLen ∧
      (machine [100]).realisation.addressable 0 = true ∧
      ¬ ((1 ≤ (machine [100]).cell 0 % 100 ∧ (machine [100]).cell 0 % 100 ≤ 9) ∨
        (machine [100]).cell 0 % 100 = 99) := by decide

theorem witness_BadModeIsTheFirstBadDigit :
    (machine [301]).status = .running ∧ 0 ≤ (machine [301]).pc ∧
      (machine [301]).pc < (machine [301]).imageLen ∧
      (machine [301]).realisation.addressable 0 = true ∧
      decodeHead ((machine [301]).cell 0) = .error (.badMode 301 0 3) :=
  ⟨rfl, by decide, by decide, rfl, rfl⟩

theorem witness_StepRunsDecodedInstruction :
    (small [99]).status = .running ∧ 0 ≤ (small [99]).pc ∧ (small [99]).pc < (small [99]).imageLen ∧
      (small [99]).realisation.addressable (0 + Instr.hlt.width - 1) = true ∧
      decode ((small [99]).cell 0) [(small [99]).cell 1, (small [99]).cell 2, (small [99]).cell 3] =
        .ok .hlt := ⟨rfl, by decide, by decide, rfl, rfl⟩

theorem witness_FetchChecksPc :
    ((machine [99] [] 0 (-1)).status = .running ∧ (machine [99] [] 0 (-1)).pc < 0) ∧
      ((machine [99] [] 0 1).status = .running ∧ 0 ≤ (machine [99] [] 0 1).pc ∧
        (machine [99] [] 0 1).imageLen ≤ (machine [99] [] 0 1).pc) := by decide

theorem witness_HaltedStaysHalted : (machine [99]).halt.status = .halted := rfl

theorem witness_FaultedRepeatsItsFault :
    ((machine [42]).takeFault (.decode (.badOpcode 42 42))).status = .faulted := rfl

theorem witness_OutcomesTellTheState :
    (stepWith 0 (machine [104, 1])).1 = .stepped true ∧ (stepWith 0 (machine [109, 1])).1 = .stepped false ∧
      (stepWith 0 (machine [99])).1 = .halt ∧ (stepWith 0 (machine [3, 0])).1 = .held ∧
      (stepWith 0 (machine [])).1 = .fault (some ⟨.outOfBounds 0, 0⟩) := by decide

theorem witness_ReadAfterWrite :
    (machine [99]).memCanonical ∧ (machine [99]).realisation.addressable 10000 = true ∧
      (machine [99]).realisation.cellFits 0 = true ∧ (small [99]).memCanonical ∧
      (small [99]).realisation.addressable 15 = true ∧ (small [99]).realisation.cellFits (-128) = true :=
  ⟨rfl, rfl, rfl, rfl, rfl, rfl⟩

theorem witness_NegativeAddressesAreRefused :
    effectiveAddr (machine [99] [] (-2)) ⟨1, .relative⟩ = some (-1) ∧
      effectiveAddr (machine [99]) ⟨-1, .position⟩ = some (-1) ∧
      (machine [99] [] 0 (-1)).status = .running ∧ (machine [99] [] 0 (-1)).pc < 0 ∧
      0 ≤ (machine [99]).pc ∧ (Port.mk (machine [99]) none).pending = none := by decide

theorem witness_ReadParamFollowsTheModes :
    (machine [99]).rb + (-1) < 0 ∧ 0 ≤ (machine [99]).rb + 0 ∧
      (small [99]).realisation.addressable ((small [99]).rb + 15).toNat = true := by decide

theorem witness_WriteAddrFollowsTheModes :
    writeAddr (machine [99] [] 2) 0 ⟨-3, .relative⟩ = .ok (-1) := rfl

theorem witness_CapacityExceededIsRaised :
    (small [99]).realisation.addressable 16 = false ∧ (small [99]).realisation.addressable 15 = true ∧
      (small [99]).realisation.cellFits 128 = false ∧ (small [99]).realisation.cellFits (-129) = false ∧
      (small [1105, 1, 7]).status = .running := by decide

/-- The third clause of CapacityExceededIsRaised: a BaseOffset at 126 would move `pc` to 128. -/
theorem witness_CapacityExceededIsRaised_pc :
    let s : State := { small [99] with
      mem := [(126, 109)], imageLen := 127, pc := 126,
      realisation := { cellBits := some 8, memCapacity := none } }
    s.status = .running ∧ fetch s = .ok (.arb ⟨0, .immediate⟩) ∧
      execute 0 (.arb ⟨0, .immediate⟩) s = .next 128 false s ∧ s.realisation.cellFits 128 = false :=
  ⟨rfl, rfl, rfl, rfl⟩

/-- The hypotheses of every clause of MeansBinary, which the four statements of its shape share. -/
theorem witness_MeansBinary_completes :
    (machine [1, 0, 0, 0, 99]).memCanonical ∧ readParam (machine [1, 0, 0, 0, 99]) ⟨0, .position⟩ = .ok 1 ∧
      writeAddr (machine [1, 0, 0, 0, 99]) 2 ⟨0, .position⟩ = .ok 0 ∧
      (machine [1, 0, 0, 0, 99]).realisation.addressable 0 = true ∧
      (machine [1, 0, 0, 0, 99]).realisation.cellFits 2 = true ∧
      (machine [1, 0, 0, 0, 99]).realisation.cellFits 4 = true := ⟨rfl, rfl, rfl, rfl, rfl, rfl⟩

theorem witness_MeansBinary_faults :
    readParam (machine [99]) ⟨-1, .position⟩ = .error (.invalidAddress (-1)) ∧
      readParam (machine [99]) ⟨0, .position⟩ = .ok 99 ∧
      writeAddr (machine [99]) 2 ⟨-1, .position⟩ = .ok (-1) ∧
      (Param.mk 5 .immediate).mode = .immediate := ⟨rfl, rfl, rfl, rfl⟩

/-- A sum and a product that leave the range of 8-bit cells, at a real address, and a comparison's 1,
which leaves the range of 1-bit cells. -/
theorem witness_MeansBinary_faultRange :
    readParam (small [99]) ⟨100, .immediate⟩ = .ok 100 ∧ writeAddr (small [99]) 2 ⟨15, .position⟩ = .ok 15 ∧
      (small [99]).realisation.addressable 15 = true ∧
      (small [99]).realisation.cellFits (100 + 100) = false ∧
      (small [99]).realisation.cellFits (100 * 100) = false ∧
      Realisation.cellFits { cellBits := some 1, memCapacity := none } 1 = false :=
  ⟨rfl, rfl, rfl, rfl, rfl, rfl⟩

theorem witness_InputCompletes :
    (machine [3, 0] [7]).memCanonical ∧ writeAddr (machine [3, 0] [7]) 0 ⟨0, .position⟩ = .ok 0 ∧
      (machine [3, 0] [7]).realisation.addressable 0 = true ∧
      (machine [3, 0] [7]).realisation.cellFits (0 + 2) = true ∧ (machine [3, 0] [7]).inq = 7 :: [] ∧
      (machine [3, 0] [7]).realisation.cellFits 7 = true ∧ (machine [3, 0] [7]).status = .running ∧
      fetch (machine [3, 0] [7]) = .ok (.inp ⟨0, .position⟩) :=
  ⟨rfl, rfl, rfl, rfl, rfl, rfl, rfl, rfl⟩

theorem witness_InputCompletes_producer :
    (machine [3, 0] [] 0 0 true).memCanonical ∧
      writeAddr (machine [3, 0] [] 0 0 true) 0 ⟨0, .position⟩ = .ok 0 ∧
      (machine [3, 0] [] 0 0 true).inq = [] ∧ (machine [3, 0] [] 0 0 true).producerPresent = true ∧
      (machine [3, 0] [] 0 0 true).realisation.cellFits (Config.producerAnswer 0) = true ∧
      (machine [3, 0] [] 0 0 true).status = .running ∧
      fetch (machine [3, 0] [] 0 0 true) = .ok (.inp ⟨0, .position⟩) ∧
      (machine [3, 0] [] 0 0 true).realisation.cellFits (-9) = true :=
  ⟨rfl, rfl, rfl, rfl, rfl, rfl, rfl, rfl⟩

theorem witness_PushLiftsTheHold :
    (machine [3, 0]).memCanonical ∧ (machine [3, 0]).status = .running ∧
      fetch (machine [3, 0]) = .ok (.inp ⟨0, .position⟩) ∧
      writeAddr (machine [3, 0]) 0 ⟨0, .position⟩ = .ok 0 ∧
      (machine [3, 0]).realisation.addressable 0 = true ∧
      (machine [3, 0]).realisation.cellFits 8 = true ∧
      (machine [3, 0]).realisation.cellFits (0 + 2) = true ∧ (machine [3, 0]).inq = [] ∧
      (machine [3, 0]).producerPresent = false := ⟨rfl, rfl, rfl, rfl, rfl, rfl, rfl, rfl, rfl⟩

theorem witness_InputChecksItsTargetFirst :
    (Param.mk 0 .immediate).mode = .immediate ∧
      writeAddr (machine [3, -4, 99] [1]) 0 ⟨-4, .position⟩ = .ok (-4) ∧
      after (machine [3, -4, 99] [1]) (fun t => t.status) = some .faulted := ⟨rfl, rfl, by decide⟩

/-- The first address past 16 cells with a queued value that fits, and the first value past 8 bits. -/
theorem witness_InputChecksItsTargetFirst_capacity :
    storeValue 0 (.inp ⟨16, .position⟩) (small [3, 16] [127]) = some 127 ∧
      writeAddr (small [3, 16] [127]) 0 ⟨16, .position⟩ = .ok 16 ∧
      (small [3, 16] [127]).realisation.addressable 16 = false ∧
      storeValue 0 (.inp ⟨15, .position⟩) (small [3, 15] [128]) = some 128 ∧
      writeAddr (small [3, 15] [128]) 0 ⟨15, .position⟩ = .ok 15 ∧
      (small [3, 15] [128]).realisation.addressable 15 = true ∧
      (small [3, 15] [128]).realisation.cellFits 128 = false := ⟨rfl, rfl, rfl, rfl, rfl, rfl, rfl⟩

/-- R120: an input value outside the cell range is CapacityExceeded, and stays in the queue. -/
theorem test_in_capacity : after (small [3, 15] [128]) (fun t => (t.inq, t.fault)) =
    some ([128], some ⟨.capacityValue 128, 0⟩) := by decide

theorem witness_OutputMeaning :
    readParam (machine [104, -5]) ⟨-5, .immediate⟩ = .ok (-5) ∧
      (machine [104, -5]).realisation.cellFits (0 + 2) = true ∧
      (machine [104, -5]).status = .running ∧ fetch (machine [104, -5]) = .ok (.out ⟨-5, .immediate⟩) ∧
      readParam (machine [4, -1]) ⟨-1, .position⟩ = .error (.invalidAddress (-1)) :=
  ⟨rfl, rfl, rfl, rfl, rfl⟩

/-- The hypotheses of every clause of MeansJump, for a true and a false condition. -/
theorem witness_MeansJump :
    readParam (machine [5]) ⟨-1, .immediate⟩ = .ok (-1) ∧ (-1 : Int) ≠ 0 ∧
      readParam (machine [5]) ⟨0, .immediate⟩ = .ok 0 ∧
      readParam (machine [5]) ⟨-3, .immediate⟩ = .ok (-3) ∧
      (machine [5]).realisation.cellFits (-3) = true ∧ (machine [5]).realisation.cellFits (0 + 3) = true ∧
      readParam (machine [5]) ⟨-1, .position⟩ = .error (.invalidAddress (-1)) :=
  ⟨rfl, by decide, rfl, rfl, rfl, rfl, rfl⟩

theorem witness_BaseOffsetMeaning :
    readParam (machine [109, 5]) ⟨5, .immediate⟩ = .ok 5 ∧
      (machine [109, 5]).realisation.cellFits (0 + 5) = true ∧
      (machine [109, 5]).realisation.cellFits (0 + 2) = true ∧
      readParam (machine [9, -1]) ⟨-1, .position⟩ = .error (.invalidAddress (-1)) ∧
      readParam (small [99]) ⟨128, .immediate⟩ = .ok 128 ∧
      (small [99]).realisation.cellFits ((small [99]).rb + 128) = false := ⟨rfl, rfl, rfl, rfl, rfl, rfl⟩

theorem witness_StepKeepsTheInvariant :
    (machine [99]).Inv ∧ step (machine [99]) = .next (machine [99]).halt :=
  ⟨⟨rfl, by simp [State.faultConsistent, machine, construct], ⟨fun _ _ => ⟨rfl, rfl⟩, rfl, rfl⟩⟩, rfl⟩

/-- A finite realisation at the edges of its range meets the invariant too. -/
theorem witness_StepKeepsTheInvariant_finite : State.Inv { small [99] with mem := [(15, -128)], rb := 127 } :=
  ⟨rfl, by simp [State.faultConsistent, small, construct], ⟨by decide, rfl, rfl⟩⟩

theorem witness_ConstructLeaves :
    machine [1, 0, 0] [7] 3 (-1) true = construct Realisation.reference [1, 0, 0] (-1) [7] 3 true ∧
      2 < [1, 0, 0].length ∧ [1, 0, 0].length ≤ 3 := by decide

theorem witness_StepKeepsTheConstants : step (machine [99]) = .next (machine [99]).halt := rfl

theorem witness_OnlyBaseOffsetWritesRb :
    after (machine [109, 5]) (fun t => decide (t.rb ≠ (machine [109, 5]).rb)) = some true := by decide

theorem witness_OnlyInputPopsTheQueue :
    after (machine [3, 0] [7]) (fun t => decide (t.inq ≠ [7])) = some true ∧
      (Port.mk (machine [99]) none).pending = none := by decide

theorem witness_OnlyOutputAppends : after (machine [104, 1]) (fun t => t.outq) = some [1] := by decide

theorem witness_StoresOnlyToTheTarget :
    (machine [1101, 2, 3, 5]).memCanonical ∧
      fetch (machine [1101, 2, 3, 5]) = .ok (.add ⟨2, .immediate⟩ ⟨3, .immediate⟩ ⟨5, .position⟩) ∧
      storeAddr (.add ⟨2, .immediate⟩ ⟨3, .immediate⟩ ⟨5, .position⟩) (machine [1101, 2, 3, 5]) = some 5 ∧
      (some 5 : Option Nat) ≠ some 4 := ⟨rfl, rfl, rfl, by decide⟩

theorem witness_FaultsArePrecise :
    (machine [42]).status = .running ∧ after (machine [42]) (fun t => t.status) = some .faulted := by
  decide

theorem witness_FaultTableColumns :
    (FaultRecord.mk (.decode (.badOpcode 42 42)) 0).cause = .decode (.badOpcode 42 42) ∧
      (FaultRecord.mk (.decode (.badMode 301 0 3)) 0).cause = .decode (.badMode 301 0 3) ∧
      (FaultRecord.mk (.invalidWriteTarget 2) 4).cause = .invalidWriteTarget 2 ∧
      (FaultRecord.mk (.invalidAddress (-1)) 0).cause = .invalidAddress (-1) ∧
      (FaultRecord.mk (.outOfBounds 4) 4).cause = .outOfBounds 4 ∧
      (FaultRecord.mk (.capacityAddr 16) 0).cause = .capacityAddr 16 ∧
      (FaultRecord.mk (.capacityValue 200) 0).cause = .capacityValue 200 := by decide

theorem witness_ReferenceNeverExceedsCapacity :
    (machine [42]).realisation = Realisation.reference ∧ (machine [42]).status = .running ∧
      (machine [42]).fault = none ∧
      after (machine [42]) (fun t => t.fault) = some (some ⟨.decode (.badOpcode 42 42), 0⟩) := by decide

theorem witness_PcMovesByWidthOrJump :
    fetch (machine [1105, 1, -3]) = .ok (.jt ⟨1, .immediate⟩ ⟨-3, .immediate⟩) ∧
      after (machine [1105, 1, -3]) (fun t => (t.pc, t.status)) = some (-3, .running) ∧
      fetch (machine [3, 0]) = .ok (.inp ⟨0, .position⟩) ∧
      after (machine [3, 0]) (fun t => (t.pc, t.status)) = some (0, .running) ∧
      fetch (machine [104, 1]) = .ok (.out ⟨1, .immediate⟩) ∧
      after (machine [104, 1]) (fun t => (t.pc, t.status)) = some (2, .running) :=
  ⟨rfl, by decide, rfl, by decide, rfl, by decide⟩

/-- S8's program: `1101,100,-1,4,0` writes 99, a Halt word, into cell 4; an IN that puts a queued word
without an opcode after itself; and the Halt word's decoding. -/
theorem witness_NextFetchSeesTheWrite :
    (machine [1101, 100, -1, 4, 0]).memCanonical ∧ (machine [1101, 100, -1, 4, 0]).status = .running ∧
      fetch (machine [1101, 100, -1, 4, 0]) =
        .ok (.add ⟨100, .immediate⟩ ⟨-1, .immediate⟩ ⟨4, .position⟩) ∧
      storeAddr (.add ⟨100, .immediate⟩ ⟨-1, .immediate⟩ ⟨4, .position⟩)
        (machine [1101, 100, -1, 4, 0]) = some (0 + 4) ∧
      storeValue 0 (.add ⟨100, .immediate⟩ ⟨-1, .immediate⟩ ⟨4, .position⟩)
        (machine [1101, 100, -1, 4, 0]) = some 99 ∧
      (0 + 4 : Int) < (machine [1101, 100, -1, 4, 0]).imageLen ∧
      (machine [1101, 100, -1, 4, 0]).realisation.addressable 4 = true ∧
      (machine [1101, 100, -1, 4, 0]).realisation.cellFits 99 = true ∧
      (machine [1101, 100, -1, 4, 0]).realisation.cellFits (0 + 4) = true ∧
      decode 99 [0, 0, 0] = .ok .hlt :=
  ⟨rfl, rfl, rfl, rfl, rfl, by decide, rfl, rfl, rfl, rfl⟩

theorem witness_NextFetchSeesTheWrite_input :
    fetch (machine [3, 2, 0] [42]) = .ok (.inp ⟨2, .position⟩) ∧
      storeAddr (.inp ⟨2, .position⟩) (machine [3, 2, 0] [42]) = some (0 + 2) ∧
      storeValue 0 (.inp ⟨2, .position⟩) (machine [3, 2, 0] [42]) = some 42 ∧
      (0 + 2 : Int) < (machine [3, 2, 0] [42]).imageLen ∧
      decodeHead 42 = .error (.badOpcode 42 42) := ⟨rfl, rfl, rfl, by decide, rfl⟩

theorem witness_HostMemoryAccess :
    (Port.mk (small [99]) none).pending = none ∧ (small [99]).memCanonical ∧
      (small [99]).realisation.addressable 15 = true ∧ (small [99]).realisation.cellFits 127 = true :=
  ⟨rfl, rfl, rfl, rfl⟩

theorem witness_IdlePortTakesCommands :
    (Port.mk (small [99]) none).pending = none ∧ memRead (small [99]) 15 = .ok 0 ∧
      memRead (small [99]) (-1) = .error (.invalidAddress (-1)) ∧
      memWrite (small [99]) 15 127 = .ok ((small [99]).store 15 127) ∧
      memWrite (small [99]) 16 1 = .error (.capacityAddr 16) := ⟨rfl, rfl, rfl, rfl, rfl⟩

theorem witness_PendingPortTakesOnlyPushes :
    (Port.mk (machine [3, 0]) (some .run)).pending = some .run ∧
      (∀ v, Command.readState ≠ .pushInput v) ∧ (Port.mk (machine [3, 0]) (some .run)).held = true ∧
      (Port.mk (machine [104, 1]) (some .run)).held = false := by
  refine ⟨rfl, ?_, by decide, by decide⟩
  intro v h
  cases h

theorem witness_RunUntilOutputTests :
    ((machine [42]).takeFault (.decode (.badOpcode 42 42))).status = .faulted ∧
      (machine [99]).emit 1 = { machine [99] with outq := 1 :: [] } ∧
      ((machine [99]).emit 1).status ≠ .faulted ∧ ((machine [99]).halt.emit 1).status ≠ .faulted ∧
      (machine [99]).halt.status = .halted ∧ (machine [99]).halt.outq = [] ∧
      (machine [99]).status = .running ∧ (machine [99]).outq = [] := by decide

theorem witness_RunReturnsEveryOutput :
    Port.serve 1 [] ⟨(machine [99]).emit 5, some .run⟩ =
        some (.done [5], ⟨((machine [99]).emit 5).halt, none⟩, []) ∧
      Port.serve 1 [] ⟨machine [], some .run⟩ =
        some (.fault (some ⟨.outOfBounds 0, 0⟩), ⟨(machine []).takeFault (.outOfBounds 0), none⟩, []) :=
  ⟨rfl, rfl⟩

theorem witness_CompletedRunEndedWell :
    (machine [99]).Inv ∧
      Port.serve 1 [] ⟨machine [99], some .run⟩ = some (.done [], ⟨(machine [99]).halt, none⟩, []) :=
  ⟨⟨rfl, by simp [State.faultConsistent, machine, construct], ⟨fun _ _ => ⟨rfl, rfl⟩, rfl, rfl⟩⟩, rfl⟩

theorem witness_RunNCollectsExactlyN :
    Port.serve 2 [] ⟨(machine [99]).emit 5, some (.untilN 1 [])⟩ =
        some (.values [5], ⟨machine [99], none⟩, []) ∧
      Port.serve 1 [] ⟨(machine [99]).halt, some (.untilN 1 [])⟩ =
        some (.noValue, ⟨(machine [99]).halt, none⟩, []) ∧
      Port.serve 2 [] ⟨machine [], some (.untilN 1 [])⟩ =
        some (.fault (some ⟨.outOfBounds 0, 0⟩), ⟨(machine []).takeFault (.outOfBounds 0), none⟩, []) ∧
      Port.serve 1 [] ⟨machine [104, 1], some (.untilN 0 [])⟩ =
        some (.values [], ⟨machine [104, 1], none⟩, []) := ⟨rfl, rfl, rfl, rfl⟩

/-- The states of one iteration: faulted, an output queued on a running and on a halted machine,
halted with none, running with none. -/
theorem witness_RunNCollectsExactlyN_iteration :
    ((machine []).takeFault (.outOfBounds 0)).status = .faulted ∧
      ((machine [99]).emit 5).status ≠ .faulted ∧ ((machine [99]).emit 5).outq = 5 :: [] ∧
      ((machine [99]).halt.emit 5).status ≠ .faulted ∧ ((machine [99]).halt.emit 5).outq = 5 :: [] ∧
      (machine [99]).halt.status = .halted ∧ (machine [99]).halt.outq = [] ∧
      (machine [99]).status = .running ∧ (machine [99]).outq = [] := by decide

/-- Log 19: RUN_N(0) on a faulted machine answers Values([]) (R175, D15). -/
theorem test_run_zero_faulted :
    ((Port.mk ((machine []).takeFault (.outOfBounds 0)) (some (.untilN 0 []))).advance 0).2 =
      some (.values []) := by decide

theorem witness_FaultIsNotHalt :
    (stepWith 0 (machine [99])).1 = .halt ∧
      (stepWith 0 (machine [])).1 = .fault (some ⟨.outOfBounds 0, 0⟩) ∧
      ((Port.mk (machine [99]) (some .run)).advance 0).2 = some (.done []) ∧
      ((Port.mk (machine [99]).halt (some .untilOutput)).advance 0).2 = some .noValue ∧
      ((Port.mk (machine []) (some .run)).advance 0).2 = some (.fault (some ⟨.outOfBounds 0, 0⟩)) := by
  decide

/-- A RUN held once: the host pushes 7, which the Input of `3,0` writes over its own word; then `pc` is
at the Halt. -/
theorem witness_DrivingStylesAgree :
    (Port.serve 5 [7] ⟨machine [3, 0, 99], some .run⟩).map (fun r => (r.1, r.2.2)) =
      some (.done [], []) := by
  rfl

end Sys2Proof.Tests
end

/-! ## What a step leaves of the state (10_state.md) -/

namespace Sys2Proof.Machine

/-- The host's step is `stepWith` under the producer answer of log 4, without the outcome (log 3). -/
theorem step_eq_next_stepWith (s : State) :
    step s = .next (stepWith (Config.producerAnswer s.draws) s).2 := by
  cases hs : s.status with
  | halted => simp [step, stepWith, hs]
  | faulted => simp [step, stepWith, hs]
  | running =>
    cases hf : fetch s with
    | error c => simp [step_of_fetch_error hs hf, stepWith, hs, hf]
    | ok i => simp [step_of_fetch hs hf, exec_eq_commit, commit, stepWith, hs, hf]

/-- The next state of a step: the old one (a stopped or held machine), a fault entry, a halt, or the
completion of the fetched instruction. Which outcome is reported, `stepWith_cases` tells. -/
theorem step_next_cases {s t : State} (h : step s = .next t) :
    t = s ∨ (s.status = .running ∧ ∃ c, t = s.takeFault c) ∨
      (s.status = .running ∧ fetch s = .ok .hlt ∧ t = s.halt) ∨
      ∃ i npc out u, s.status = .running ∧ fetch s = .ok i ∧
        Completes (Config.producerAnswer s.draws) s i npc out u ∧
        s.realisation.cellFits npc = true ∧ t = u.setPc npc := by
  rw [step_eq_next_stepWith] at h
  obtain rfl := Host.Outcome.next.inj h
  obtain ⟨_, hw⟩ | ⟨_, hw⟩ | ⟨hr, c, hw⟩ | ⟨i, hr, hf, hi⟩ :=
    stepWith_cases (Config.producerAnswer s.draws) s
  · exact .inl (by rw [hw])
  · exact .inl (by rw [hw])
  · exact .inr (.inl ⟨hr, c, by rw [hw]⟩)
  · obtain ⟨_, _, _, _, hw⟩ | ⟨rfl, hw⟩ | ⟨npc, out, u, hc, hn, hw⟩ := hi
    · exact .inl (by rw [hw])
    · exact .inr (.inr (.inl ⟨hr, hf, by rw [hw]⟩))
    · exact .inr (.inr (.inr ⟨i, npc, out, u, hr, hf, hc, hn, by rw [hw]⟩))

/-- R23: a completion keeps `rb`, unless it is BaseOffset's, which adds its operand. -/
theorem Completes.rb_cases {d npc : Int} {s u : State} {i : Instr} {out : Bool}
    (h : Completes d s i npc out u) :
    u.rb = s.rb ∨ ∃ a v, i = .arb a ∧ readParam s a = .ok v ∧ u.rb = s.rb + v := by
  cases h with
  | rebase a v hv => exact .inr ⟨a, v, rfl, hv, rfl⟩
  | store | queued | drawn | emit | jump | fall => exact .inl rfl

/-- R26: a completion keeps the input queue, unless it is Input's, which takes its front. An Input
that the producer answers keeps it too. -/
theorem Completes.inq_cases {d npc : Int} {s u : State} {i : Instr} {out : Bool}
    (h : Completes d s i npc out u) :
    u.inq = s.inq ∨ ∃ dst v, i = .inp dst ∧ s.inq = v :: u.inq := by
  cases h with
  | queued dst a v rest hq => exact .inr ⟨dst, v, rfl, hq⟩
  | store | drawn | emit | jump | fall | rebase => exact .inl rfl

/-- An idle port takes PUSH_INPUT (47_run_control.md R170, R171): the value goes to the back of the
input queue. -/
theorem Port.accept_pushInput {p : Port} (h : p.pending = none) (v : Int) :
    p.accept (.pushInput v) = some ({ p with machine := p.machine.pushInput v }, some .ok) := by
  simp [Port.accept, Port.take, h]

/-- Settles O38: of all that a step can do, only the completion of BaseOffset moves `rb`. -/
theorem onlyBaseOffsetWritesRb : Obligations.OnlyBaseOffsetWritesRb := by
  refine ⟨fun s t h hne => ?_, fun _ _ _ _ _ _ => rfl⟩
  obtain rfl | ⟨_, c, rfl⟩ | ⟨_, _, rfl⟩ | ⟨i, npc, out, u, hr, hf, hc, _, rfl⟩ := step_next_cases h
  · exact absurd rfl hne
  · exact absurd rfl hne
  · exact absurd rfl hne
  · obtain hk | ⟨a, v, rfl, hv, hrb⟩ := hc.rb_cases
    · exact absurd hk hne
    · exact ⟨a, v, hr, hf, hv, hrb⟩

/-- Settles O39: of all that a step can do, only the completion of an Input from the queue takes a
value of it. -/
theorem onlyInputPopsTheQueue : Obligations.OnlyInputPopsTheQueue := by
  refine ⟨fun s t h => ?_, fun p v hp => Port.accept_pushInput hp v, fun _ _ _ _ _ _ => rfl⟩
  obtain rfl | ⟨_, c, rfl⟩ | ⟨_, _, rfl⟩ | ⟨i, npc, out, u, hr, hf, hc, _, rfl⟩ := step_next_cases h
  · exact .inl rfl
  · exact .inl rfl
  · exact .inl rfl
  · obtain hk | ⟨dst, v, rfl, hq⟩ := hc.inq_cases
    · exact .inl hk
    · exact .inr ⟨dst, v, hr, hf, hq⟩

end Sys2Proof.Machine

/-! ## What memory reads after a write (20_memory.md) -/

namespace Sys2Proof.Machine

/-- R43: a write at a negative address is refused, whatever the value. -/
theorem memWrite_of_neg {s : State} {addr : Int} (h : addr < 0) (v : Int) :
    memWrite s addr v = .error (.invalidAddress addr) := if_pos h

/-- R42: the stored cell reads the value, where the realisation has it. -/
theorem memRead_store_self {s : State} (hs : s.memCanonical) {addr : Int} (h0 : 0 ≤ addr)
    (ha : s.realisation.addressable addr.toNat = true) (v : Int) :
    memRead (s.store addr.toNat v) addr = .ok v := by
  rw [memRead_eq_ok (s := s.store addr.toNat v) h0 ha, State.store_cell s _ v _ hs, if_pos rfl]

/-- R42: a store leaves the read of every other address as it was, a refused one included. -/
theorem memRead_store_of_ne {s : State} (hs : s.memCanonical) {addr b : Int} (h0 : 0 ≤ addr)
    (hne : b ≠ addr) (v : Int) : memRead (s.store addr.toNat v) b = memRead s b := by
  by_cases hb : b < 0
  · exact (if_pos hb).trans (if_pos hb).symm
  · have hcell : (s.store addr.toNat v).cell b.toNat = s.cell b.toNat := by
      rw [State.store_cell s _ v _ hs, if_neg (by omega)]
    unfold memRead
    rw [hcell, State.store_realisation]

/-- Settles O15: a write that is not refused is a store, and a store moves the read of its own address
only. -/
theorem readAfterWrite : Obligations.ReadAfterWrite := by
  refine fun s a v hs => ⟨fun hneg => memWrite_of_neg hneg v, fun h0 ha hv => ?_⟩
  exact ⟨s.store a.toNat v, memWrite_eq_ok h0 ha hv, rfl, memRead_store_self hs h0 ha v,
    fun _ hne => memRead_store_of_ne hs h0 hne v⟩

end Sys2Proof.Machine

/-! ## What the decoder answers for a word (30_encoding.md R62, R66, R71) -/

namespace Sys2Proof

/-- The opcode numbers are 1 to 9 and 99 (30_encoding.md R63). -/
theorem Opcode.exists_code_eq_iff {f : Int} :
    (∃ op : Opcode, f = op.code) ↔ (1 ≤ f ∧ f ≤ 9) ∨ f = 99 := by
  constructor
  · rintro ⟨op, rfl⟩
    cases op <;> decide
  · rintro (⟨hlo, hhi⟩ | rfl)
    · interval_cases f
      exacts [⟨.add, rfl⟩, ⟨.mul, rfl⟩, ⟨.inp, rfl⟩, ⟨.out, rfl⟩, ⟨.jt, rfl⟩, ⟨.jf, rfl⟩, ⟨.lt, rfl⟩,
        ⟨.eq, rfl⟩, ⟨.arb, rfl⟩]
    · exact ⟨.hlt, rfl⟩

/-- R66: the numbers that name no operation. -/
theorem opcodeOf_eq_none_iff_range {f : Int} :
    opcodeOf f = none ↔ ¬ ((1 ≤ f ∧ f ≤ 9) ∨ f = 99) := by
  rw [opcodeOf_eq_none, ← Opcode.exists_code_eq_iff, not_exists]

/-- A decoded mode list starts with the mode that the first digit names. -/
theorem decodeModes_succ_ok {w : Int} {i n : Nat} {ms : List Mode}
    (h : decodeModes w i (n + 1) = .ok ms) :
    ∃ m rest, modeDigit w i = m.code ∧ decodeModes w (i + 1) n = .ok rest ∧ ms = m :: rest := by
  unfold decodeModes at h
  split at h
  · cases h
  next m hm =>
    split at h
    · cases h
    next rest hrest => exact ⟨m, rest, modeOf_eq_some.1 hm, hrest, (Except.ok.inj h).symm⟩

/-- R62: every entry of a decoded mode list is named by its own digit of the word. -/
theorem decodeModes_getD_code {w : Int} {i n : Nat} {ms : List Mode}
    (h : decodeModes w i n = .ok ms) {j : Nat} (hj : j < n) :
    (ms.getD j .position).code = modeDigit w (i + j) := by
  induction n generalizing i ms j with
  | zero => exact absurd hj (Nat.not_lt_zero j)
  | succ n ih =>
    obtain ⟨m, rest, hm, hrest, rfl⟩ := decodeModes_succ_ok h
    cases j with
    | zero => exact hm.symm
    | succ j =>
      have htail := ih hrest (Nat.lt_of_succ_lt_succ hj)
      rwa [Nat.add_assoc, Nat.add_comm 1 j] at htail

/-- R71: the mode stage fails only with BadMode, at the lowest index whose digit names no mode. -/
theorem decodeModes_error {w : Int} {i n : Nat} {e : DecodeError}
    (h : decodeModes w i n = .error e) :
    ∃ p, i ≤ p ∧ p < i + n ∧ modeOf (modeDigit w p) = none ∧ e = .badMode w p (modeDigit w p) ∧
      ∀ j, i ≤ j → j < p → ∃ m, modeOf (modeDigit w j) = some m := by
  induction n generalizing i with
  | zero => cases h
  | succ n ih =>
    unfold decodeModes at h
    split at h
    next hm => exact ⟨i, by omega, by omega, hm, (Except.error.inj h).symm, by omega⟩
    next m hm =>
      split at h
      next e' he =>
        obtain rfl := Except.error.inj h
        obtain ⟨p, hip, hpn, hbad, hp, hlow⟩ := ih he
        refine ⟨p, by omega, by omega, hbad, hp, fun j hij hjp => ?_⟩
        obtain rfl | hlt := Nat.eq_or_lt_of_le hij
        · exact ⟨m, hm⟩
        · exact hlow j hlt hjp
      · cases h

/-- R66: an opcode field that names no operation is BadOpcode, before any mode is looked at. -/
theorem decodeHead_of_opcodeOf_none {w : Int} (h : opcodeOf (opcodeField w) = none) :
    decodeHead w = .error (.badOpcode w (opcodeField w)) := by
  simp [decodeHead, h]

/-- The two ways a word is refused: by its opcode field, or by the modes of an operation it has. -/
theorem decodeHead_error_cases {w : Int} {e : DecodeError} (h : decodeHead w = .error e) :
    (opcodeOf (opcodeField w) = none ∧ e = .badOpcode w (opcodeField w)) ∨
      ∃ op : Opcode, opcodeField w = op.code ∧ decodeModes w 0 op.nparams = .error e := by
  cases ho : opcodeOf (opcodeField w) with
  | none => exact .inl ⟨rfl, by simpa [decodeHead_of_opcodeOf_none ho] using h.symm⟩
  | some op =>
    refine .inr ⟨op, opcodeOf_eq_some.1 ho, ?_⟩
    cases hm : decodeModes w 0 op.nparams with
    | error e' => simpa [decodeHead, ho, hm] using h
    | ok ms => simp [decodeHead, ho, hm] at h

/-- R66: BadOpcode is the answer for exactly the words whose opcode field names no operation. -/
theorem decodeHead_eq_badOpcode_iff {w w' o : Int} :
    decodeHead w = .error (.badOpcode w' o) ↔
      w' = w ∧ o = opcodeField w ∧ opcodeOf (opcodeField w) = none := by
  constructor
  · intro h
    obtain ⟨hnone, he⟩ | ⟨op, _, hm⟩ := decodeHead_error_cases h
    · cases he
      exact ⟨rfl, rfl, hnone⟩
    · obtain ⟨p, _, _, _, he, _⟩ := decodeModes_error hm
      cases he
  · rintro ⟨rfl, rfl, hnone⟩
    exact decodeHead_of_opcodeOf_none hnone

/-- Settles O4: a decoded head's modes are the ones that its operation's digits name. -/
theorem modesAreTheDigits : Obligations.ModesAreTheDigits := by
  intro w h hd
  obtain ⟨_, hms⟩ := decodeHead_ok hd
  refine ⟨decodeModes_length hms, fun i hi => ?_⟩
  rw [decodeModes_getD_code hms hi, Nat.zero_add]
  rfl

end Sys2Proof

/-! ## What a running machine does with a word that is no instruction (40_dispatch_and_step.md R93, R94) -/

namespace Sys2Proof.Machine

/-- A fetch inside the image whose word is refused is that decode error. -/
theorem fetch_of_decodeHead_error {s : State} {e : DecodeError} (h0 : 0 ≤ s.pc)
    (hL : s.pc < s.imageLen) (ha : s.realisation.addressable s.pc.toNat = true)
    (hd : decodeHead (s.cell s.pc.toNat) = .error e) : fetch s = .error (.decode e) := by
  have hdec : decodeAt s = .error (.decode e) := by simp [decodeAt, memRead_eq_ok h0 ha, hd]
  rw [fetch, if_neg (by omega), if_neg (by omega), hdec]

/-- A running machine raises what its fetch raises. -/
theorem raises_of_fetch_error {s : State} {c : FaultCause} (hr : s.status = .running)
    (hf : fetch s = .error c) : Raises (step s) s c :=
  ⟨s.takeFault c, step_of_fetch_error hr hf, rfl, rfl⟩

/-- Settles O5: the decoder answers BadOpcode for exactly the fields that name no operation, and the
step raises what the fetch raises. -/
theorem badOpcodeExactly : Obligations.BadOpcodeExactly := by
  refine ⟨fun w w' o => ?_, fun s hr h0 hL ha hbad => ?_⟩
  · rw [decodeHead_eq_badOpcode_iff, opcodeOf_eq_none_iff_range]
    rfl
  · have hd := decodeHead_of_opcodeOf_none (opcodeOf_eq_none_iff_range.2 hbad)
    exact raises_of_fetch_error hr (fetch_of_decodeHead_error h0 hL ha hd)

/-! ### The three modes of a parameter (30_encoding.md R73, R74) -/

/-- R43: a read at a negative address is refused. -/
theorem memRead_of_neg {s : State} {addr : Int} (h : addr < 0) :
    memRead s addr = .error (.invalidAddress addr) := if_pos h

/-- A parameter that names an address is read from memory there. -/
theorem readParam_of_effectiveAddr {s : State} {p : Param} {addr : Int}
    (h : effectiveAddr s p = some addr) : readParam s p = memRead s addr := by
  simp [readParam, h]

/-- A parameter that names no address is its raw value. -/
theorem readParam_of_effectiveAddr_none {s : State} {p : Param} (h : effectiveAddr s p = none) :
    readParam s p = .ok p.raw := by
  simp [readParam, h]

/-- A write target that names an address resolves to it, of either sign. -/
theorem writeAddr_of_effectiveAddr {s : State} {p : Param} {addr : Int}
    (h : effectiveAddr s p = some addr) (i : Nat) : writeAddr s i p = .ok addr := by
  simp [writeAddr, h]

/-- R75: a write target that names no address is refused with its index. -/
theorem writeAddr_of_effectiveAddr_none {s : State} {p : Param} (h : effectiveAddr s p = none)
    (i : Nat) : writeAddr s i p = .error (.invalidWriteTarget i) := by
  simp [writeAddr, h]

/-- Settles O17: an immediate names no address, and the other two modes are a memory read at the
address they name. -/
theorem readParamFollowsTheModes : Obligations.ReadParamFollowsTheModes := by
  intro s raw
  have hpos := readParam_of_effectiveAddr (effectiveAddr_position s raw)
  have hrel := readParam_of_effectiveAddr (effectiveAddr_relative s raw)
  exact ⟨readParam_of_effectiveAddr_none (effectiveAddr_immediate s raw),
    fun hneg => hpos.trans (memRead_of_neg hneg), fun h0 ha => hpos.trans (memRead_eq_ok h0 ha),
    fun hneg => hrel.trans (memRead_of_neg hneg), fun h0 ha => hrel.trans (memRead_eq_ok h0 ha)⟩

/-- Settles O18: the address a target names is its resolution, and its sign is the write's to check. -/
theorem writeAddrFollowsTheModes : Obligations.WriteAddrFollowsTheModes := fun s i raw =>
  ⟨writeAddr_of_effectiveAddr (effectiveAddr_position s raw) i,
    writeAddr_of_effectiveAddr (effectiveAddr_relative s raw) i,
    writeAddr_of_effectiveAddr_none (effectiveAddr_immediate s raw) i,
    fun _ _ v _ hneg => memWrite_of_neg hneg v⟩

end Sys2Proof.Machine

/-! ## The decoder reads what the encoder writes in the word (30_encoding.md R61, R62, R78) -/

namespace Sys2Proof

/-- The mode digits from digit `k` on are a multiple of `10 ^ k`. -/
theorem pow_dvd_encodeModes (k : Nat) (ms : List Mode) : (10 : Int) ^ k ∣ encodeModes k ms := by
  induction ms generalizing k with
  | nil => exact dvd_zero _
  | cons m ms ih => exact dvd_add (dvd_mul_left _ _) ((pow_dvd_pow 10 k.le_succ).trans (ih (k + 1)))

/-- Digit `k` of a word whose lower digits are `r` and whose modes start at digit `k`. -/
theorem digit_add_encodeModes_cons {r : Int} {k : Nat} (h0 : 0 ≤ r) (hr : r < 10 ^ k) (m : Mode)
    (ms : List Mode) : digit (r + encodeModes k (m :: ms)) k = m.code := by
  obtain ⟨q, hq⟩ := pow_dvd_encodeModes (k + 1) ms
  obtain ⟨hlo, hhi⟩ := m.code_range
  have hw : r + encodeModes k (m :: ms) = r + 10 ^ k * (m.code + 10 * q) := by
    rw [encodeModes, hq]
    ring
  rw [digit, hw, Int.add_mul_ediv_left _ _ (by positivity), Int.ediv_eq_zero_of_lt h0 hr]
  omega

/-- R62, R78: the mode stage reads an encoded mode list back, whatever stands in the lower digits. -/
theorem decodeModes_add_encodeModes {r : Int} {i : Nat} (h0 : 0 ≤ r) (hr : r < 10 ^ (i + 2))
    (ms : List Mode) : decodeModes (r + encodeModes (i + 2) ms) i ms.length = .ok ms := by
  induction ms generalizing r i with
  | nil => rfl
  | cons m ms ih =>
    have hd : modeDigit (r + encodeModes (i + 2) (m :: ms)) i = m.code :=
      digit_add_encodeModes_cons h0 hr m ms
    obtain ⟨hlo, hhi⟩ := m.code_range
    have hm : m.code * 10 ^ (i + 2) ≤ 2 * 10 ^ (i + 2) :=
      mul_le_mul_of_nonneg_right hhi (by positivity)
    have hp : (10 : Int) ^ (i + 1 + 2) = 10 * 10 ^ (i + 2) := pow_succ' 10 (i + 2)
    have hw : r + encodeModes (i + 2) (m :: ms) =
        r + m.code * 10 ^ (i + 2) + encodeModes (i + 1 + 2) ms := (add_assoc _ _ _).symm
    have hrest : decodeModes (r + encodeModes (i + 2) (m :: ms)) (i + 1) ms.length = .ok ms := by
      rw [hw]
      exact ih (by positivity) (by linarith)
    simp [decodeModes, hd, hrest]

theorem Opcode.code_range (op : Opcode) : 0 ≤ op.code ∧ op.code ≤ 99 := by
  cases op <;> decide

/-- R61: the modes do not reach the opcode field. -/
theorem opcodeField_encodeHead (h : Head) : opcodeField (encodeHead h) = h.op.code := by
  obtain ⟨q, hq⟩ := pow_dvd_encodeModes 2 h.modes
  obtain ⟨hlo, hhi⟩ := h.op.code_range
  rw [opcodeField, encodeHead, hq]
  omega

/-- R78: a head with a mode for each parameter is read back from its canonical word. -/
theorem decodeHead_encodeHead {h : Head} (hn : h.modes.length = h.op.nparams) :
    decodeHead (encodeHead h) = .ok h := by
  obtain ⟨hlo, hhi⟩ := h.op.code_range
  have hms : decodeModes (encodeHead h) 0 h.op.nparams = .ok h.modes :=
    hn ▸ decodeModes_add_encodeModes hlo (by omega) h.modes
  simp [decodeHead, opcodeField_encodeHead, hms]

/-- R71, R78: the canonical word of a head, with the cells after it, is the head's instruction. -/
theorem decode_encodeHead {h : Head} (hn : h.modes.length = h.op.nparams) (raws : List Int) :
    decode (encodeHead h) raws = .ok (assemble h raws) := by
  rw [decode, decodeHead_encodeHead hn]

/-- R78: the canonical word of three parameters, written out, with the cells after it. -/
theorem decode_three_params {op : Opcode} (hn : op.nparams = 3) (a b dst : Param)
    (rest : List Int) :
    decode (op.code + 100 * a.mode.code + 1000 * b.mode.code + 10000 * dst.mode.code)
        (a.raw :: b.raw :: dst.raw :: rest) =
      .ok (assemble ⟨op, [a.mode, b.mode, dst.mode]⟩ (a.raw :: b.raw :: dst.raw :: rest)) := by
  have hw : op.code + 100 * a.mode.code + 1000 * b.mode.code + 10000 * dst.mode.code =
      encodeHead ⟨op, [a.mode, b.mode, dst.mode]⟩ := by
    simp only [encodeHead, encodeModes]
    ring
  rw [hw]
  exact decode_encodeHead (h := ⟨op, [a.mode, b.mode, dst.mode]⟩) hn.symm _

end Sys2Proof

/-! ## The three-parameter instructions (41_arithmetic.md R110, R111) -/

namespace Sys2Proof.Machine

/-- Log 7, log 8: a value outside the cell range is refused at an address that is there. -/
theorem memWrite_of_not_cellFits {s : State} {addr v : Int} (h0 : 0 ≤ addr)
    (ha : s.realisation.addressable addr.toNat = true) (hv : s.realisation.cellFits v = false) :
    memWrite s addr v = .error (.capacityValue v) := by
  rw [memWrite, if_neg (by omega), if_neg (by simp [ha]), if_pos (by simp [hv])]

/-- R74: an immediate names no address. -/
theorem effectiveAddr_of_immediate {s : State} {p : Param} (h : p.mode = .immediate) :
    effectiveAddr s p = none := by
  simp [effectiveAddr, h]

/-- A faulting execute stage is raised by the commit. -/
theorem raises_commit_fault (s : State) (c : FaultCause) : Raises (commit s (.fault c)) s c :=
  ⟨s.takeFault c, rfl, rfl, rfl⟩

/-- A stage that stores and goes on is completed by the commit, with every other cell as it was. -/
theorem storeCompletes_commit_store {s : State} (hs : s.memCanonical) {width : Int}
    (hpc : s.realisation.cellFits (s.pc + width) = true) (addr v : Int) :
    StoreCompletes (commit s (.next (s.pc + width) false (s.store addr.toNat v))) s width addr v := by
  refine ⟨(s.store addr.toNat v).setPc (s.pc + width), by rw [commit, settle_next hpc], rfl, ?_,
    fun b hb => ?_⟩
  · rw [State.setPc_cell, State.store_cell s _ v _ hs, if_pos rfl]
  · rw [State.setPc_cell, State.store_cell s _ v _ hs, if_neg hb.symm]

section
variable {f : Int → Int → Int} {a b dst : Param} {s : State} {va vb addr : Int} {c : FaultCause}

/-- R102: the read fault of the first operand comes first. -/
theorem binaryStage_fault_first (ha : readParam s a = .error c) :
    binaryStage f a b dst s = .fault c := by
  rw [binaryStage, ha]
  rfl

/-- R102: the read fault of the second operand comes next. -/
theorem binaryStage_fault_second (ha : readParam s a = .ok va) (hb : readParam s b = .error c) :
    binaryStage f a b dst s = .fault c := by
  rw [binaryStage, ha, hb]
  rfl

/-- R102: the target is resolved after the operands. -/
theorem binaryStage_fault_target (ha : readParam s a = .ok va) (hb : readParam s b = .ok vb)
    (hd : writeAddr s 2 dst = .error c) : binaryStage f a b dst s = .fault c := by
  rw [binaryStage, ha, hb, hd]
  rfl

/-- R102: the write of the result comes last. -/
theorem binaryStage_fault_write (ha : readParam s a = .ok va) (hb : readParam s b = .ok vb)
    (hd : writeAddr s 2 dst = .ok addr) (hw : memWrite s addr (f va vb) = .error c) :
    binaryStage f a b dst s = .fault c := by
  simp [binaryStage, ha, hb, hd, hw, bind, Except.bind, Stage.ofExcept]

theorem binaryResult_of_reads (ha : readParam s a = .ok va) (hb : readParam s b = .ok vb) :
    binaryResult f a b s = some (f va vb) := by
  simp [binaryResult, ha, hb]

end

/-- An operation of three parameters whose instruction commits the shared stage under `f` means `f`:
its encoding is the canonical word's, and its completion and faults are the stage's. -/
theorem meansBinary_of_exec {mk : Param → Param → Param → Instr} {f : Int → Int → Int} {op : Opcode}
    (hn : op.nparams = 3) (hmk : ∀ p, op.instr p = mk (p 0) (p 1) (p 2))
    (hexec : ∀ a b dst s, exec (mk a b dst) s = commit s (binaryStage f a b dst s)) :
    MeansBinary mk op.code f where
  encoding a b dst rest := (decode_three_params hn a b dst rest).trans (congrArg Except.ok (hmk _))
  completes a b dst s va vb addr hs ha hb hd h0 hin hv hpc := by
    rw [hexec, binaryStage_stores (binaryResult_of_reads ha hb) hd h0 hin hv]
    exact storeCompletes_commit_store hs hpc addr _
  faultA a b dst s c ha := by
    rw [hexec, binaryStage_fault_first ha]
    exact raises_commit_fault s c
  faultB a b dst s va c ha hb := by
    rw [hexec, binaryStage_fault_second ha hb]
    exact raises_commit_fault s c
  faultTarget a b dst s va vb ha hb hm := by
    have hd := writeAddr_of_effectiveAddr_none (effectiveAddr_of_immediate (s := s) hm) 2
    rw [hexec, binaryStage_fault_target ha hb hd]
    exact raises_commit_fault s _
  faultNegative a b dst s va vb addr ha hb hd hneg := by
    rw [hexec, binaryStage_fault_write ha hb hd (memWrite_of_neg hneg _)]
    exact raises_commit_fault s _
  faultRange a b dst s va vb addr ha hb hd h0 hin hv := by
    rw [hexec, binaryStage_fault_write ha hb hd (memWrite_of_not_cellFits h0 hin hv)]
    exact raises_commit_fault s _

/-- Settles O20: ADD is the shared three-parameter stage under the exact sum. -/
theorem addMeaning : Obligations.AddMeaning :=
  meansBinary_of_exec (op := .add) rfl (fun _ => rfl) fun _ _ _ _ => rfl

/-- Settles O21: MUL is the shared three-parameter stage under the exact product. -/
theorem mulMeaning : Obligations.MulMeaning :=
  meansBinary_of_exec (op := .mul) rfl (fun _ => rfl) fun _ _ _ _ => rfl

end Sys2Proof.Machine

/-! ## The output instruction (42_io.md R122) -/

namespace Sys2Proof

/-- R78: the canonical word of one parameter, written out, with the cells after it. -/
theorem decode_one_param {op : Opcode} (hn : op.nparams = 1) (a : Param) (rest : List Int) :
    decode (op.code + 100 * a.mode.code) (a.raw :: rest) =
      .ok (assemble ⟨op, [a.mode]⟩ (a.raw :: rest)) := by
  have hw : op.code + 100 * a.mode.code = encodeHead ⟨op, [a.mode]⟩ := by
    simp only [encodeHead, encodeModes]
    ring
  rw [hw]
  exact decode_encodeHead (h := ⟨op, [a.mode]⟩) hn.symm _

end Sys2Proof

namespace Sys2Proof.Machine

/-- R91: a running machine whose fetch succeeds settles the execute stage of the fetched instruction,
under any producer answer. -/
theorem stepWith_of_fetch {s : State} {i : Instr} (hr : s.status = .running) (hf : fetch s = .ok i)
    (d : Int) : stepWith d s = settle s (execute d i s) := by
  simp [stepWith, hr, hf]

section
variable {s : State} {a : Param} {va : Int} {c : FaultCause}

theorem outStage_of_read (ha : readParam s a = .ok va) :
    outStage a s = .next (s.pc + 2) true (s.emit va) := by
  simp [outStage, ha]

theorem outStage_of_read_error (ha : readParam s a = .error c) : outStage a s = .fault c := by
  simp [outStage, ha]

/-- R122: the Output stage of an operand that reads commits the appended value and the advanced `pc`,
and reports an output. -/
theorem settle_outStage_of_read (ha : readParam s a = .ok va)
    (hpc : s.realisation.cellFits (s.pc + 2) = true) :
    settle s (outStage a s) = (.stepped true, (s.emit va).setPc (s.pc + 2)) := by
  rw [outStage_of_read ha, settle_next hpc]

end

/-- The dispatch of OUT commits the Output stage. -/
theorem exec_out (a : Param) (s : State) : exec (.out a) s = .next (settle s (outStage a s)).2 := rfl

/-- Settles O27: the encoding is the canonical word's, completion and outcome are those of the settled
Output stage, and a read fault ends the stage before it emits. -/
theorem outputMeaning : Obligations.OutputMeaning := by
  refine ⟨fun a rest => decode_one_param (op := .out) rfl a rest, fun s a va ha hpc => ?_,
    fun s a c ha => ?_⟩
  · have hs := settle_outStage_of_read ha hpc
    refine ⟨?_, fun hr hf d => ?_⟩
    · rw [exec_out, hs]
      rfl
    · rw [stepWith_of_fetch hr hf d]
      exact congrArg Prod.fst hs
  · refine ⟨s.takeFault c, ?_, rfl, rfl, rfl⟩
    rw [exec_out, outStage_of_read_error ha, settle_fault]

end Sys2Proof.Machine

/-! ## The conditional jumps (43_jumps.md R130 to R132) -/

namespace Sys2Proof

/-- R78: the canonical word of two parameters, written out, with the cells after it. -/
theorem decode_two_params {op : Opcode} (hn : op.nparams = 2) (a b : Param) (rest : List Int) :
    decode (op.code + 100 * a.mode.code + 1000 * b.mode.code) (a.raw :: b.raw :: rest) =
      .ok (assemble ⟨op, [a.mode, b.mode]⟩ (a.raw :: b.raw :: rest)) := by
  have hw : op.code + 100 * a.mode.code + 1000 * b.mode.code =
      encodeHead ⟨op, [a.mode, b.mode]⟩ := by
    simp only [encodeHead, encodeModes]
    ring
  rw [hw]
  exact decode_encodeHead (h := ⟨op, [a.mode, b.mode]⟩) hn.symm _

end Sys2Proof

namespace Sys2Proof.Machine

theorem condHolds_eq_true_iff {v : Int} : condHolds v = true ↔ v ≠ 0 := bne_iff_ne

theorem condHolds_eq_false_iff {v : Int} : condHolds v = false ↔ v = 0 := by
  simp [condHolds]

section
variable {sense : Bool} {a b : Param} {s : State} {va vb : Int} {c : FaultCause}

/-- R130: the read fault of the condition comes first. -/
theorem jumpStage_of_condition_error (ha : readParam s a = .error c) :
    jumpStage sense a b s = .fault c := by
  simp [jumpStage, ha]

/-- R132: a taken jump goes on at the value its target reads as. -/
theorem jumpStage_of_taken (ha : readParam s a = .ok va) (ht : condHolds va = sense)
    (hb : readParam s b = .ok vb) : jumpStage sense a b s = .next vb false s := by
  simp [jumpStage, ha, ht, hb]

/-- R132: a taken jump raises the read fault of its target. -/
theorem jumpStage_of_target_error (ha : readParam s a = .ok va) (ht : condHolds va = sense)
    (hb : readParam s b = .error c) : jumpStage sense a b s = .fault c := by
  simp [jumpStage, ha, ht, hb]

/-- R132: a jump not taken goes on after itself, whatever its target would read as. -/
theorem jumpStage_of_not_taken (ha : readParam s a = .ok va) (ht : condHolds va ≠ sense) :
    jumpStage sense a b s = .next (s.pc + 3) false s := by
  simp [jumpStage, ha, ht]

end

/-- A stage that goes on from the unchanged pending state commits a new `pc` and nothing else. -/
theorem commit_next_self {s : State} {p : Int} (hp : s.realisation.cellFits p = true)
    (emitted : Bool) : commit s (.next p emitted s) = .next { s with pc := p } := by
  rw [commit, settle_next hp]
  rfl

/-- A two-parameter operation whose instruction commits the shared jump stage under `sense` is a jump
on the conditions of that truth: its encoding is the canonical word's, and its paths and faults are
the stage's. -/
theorem meansJump_of_exec {mk : Param → Param → Instr} {taken : Int → Prop} {op : Opcode}
    {sense : Bool} (hn : op.nparams = 2) (hmk : ∀ p, op.instr p = mk (p 0) (p 1))
    (hexec : ∀ a b s, exec (mk a b) s = commit s (jumpStage sense a b s))
    (htaken : ∀ v, condHolds v = sense ↔ taken v) : MeansJump mk op.code taken where
  encoding a b rest := (decode_two_params hn a b rest).trans (congrArg Except.ok (hmk _))
  jumps a b s va vb ha ht hb hpc := by
    rw [hexec, jumpStage_of_taken ha ((htaken va).2 ht) hb]
    exact commit_next_self hpc false
  falls a b s va ha ht hpc := by
    rw [hexec, jumpStage_of_not_taken ha (mt (htaken va).1 ht)]
    exact commit_next_self hpc false
  faultA a b s c ha := by
    rw [hexec, jumpStage_of_condition_error ha]
    exact raises_commit_fault s c
  faultB a b s va c ha ht hb := by
    rw [hexec, jumpStage_of_target_error ha ((htaken va).2 ht) hb]
    exact raises_commit_fault s c

/-- Settles O28: JT is the shared jump stage, taken when the condition holds. -/
theorem jumpIfTrueMeaning : Obligations.JumpIfTrueMeaning :=
  meansJump_of_exec (op := .jt) (sense := true) rfl (fun _ => rfl) (fun _ _ _ => rfl)
    fun _ => condHolds_eq_true_iff

/-- Settles O29: JF is the shared jump stage, taken when the condition does not hold. -/
theorem jumpIfFalseMeaning : Obligations.JumpIfFalseMeaning :=
  meansJump_of_exec (op := .jf) (sense := false) rfl (fun _ => rfl) (fun _ _ _ => rfl)
    fun _ => condHolds_eq_false_iff

end Sys2Proof.Machine

/-! ## The comparisons (44_compare.md R140, R141) -/

namespace Sys2Proof.Machine

/-- The cell of a decided truth is 1 or 0, written out. -/
theorem truthCell_decide (p : Prop) [Decidable p] :
    truthCell (decide p) = if p then 1 else 0 := by
  simp [truthCell]

/-- R140: the execute stage of LT, its result written out. -/
theorem ltStage_eq_binaryStage (a b dst : Param) (s : State) :
    ltStage a b dst s = binaryStage (fun x y => if x < y then 1 else 0) a b dst s := by
  simp only [ltStage, truthCell_decide]

/-- R141: the execute stage of EQ, its result written out. -/
theorem eqStage_eq_binaryStage (a b dst : Param) (s : State) :
    eqStage a b dst s = binaryStage (fun x y => if x = y then 1 else 0) a b dst s := by
  simp only [eqStage, truthCell_decide]

/-- Settles O22: LT is the shared three-parameter stage under the signed comparison. -/
theorem lessThanMeaning : Obligations.LessThanMeaning :=
  meansBinary_of_exec (op := .lt) rfl (fun _ => rfl) fun a b dst s =>
    congrArg (commit s) (ltStage_eq_binaryStage a b dst s)

/-- Settles O23: EQ is the shared three-parameter stage under equality of integers. -/
theorem equalsMeaning : Obligations.EqualsMeaning :=
  meansBinary_of_exec (op := .eq) rfl (fun _ => rfl) fun a b dst s =>
    congrArg (commit s) (eqStage_eq_binaryStage a b dst s)

end Sys2Proof.Machine

/-! ## The base offset (45_base.md R150) -/

namespace Sys2Proof.Machine

section
variable {s : State} {a : Param} {va : Int} {c : FaultCause}

theorem arbStage_of_read_error (ha : readParam s a = .error c) : arbStage a s = .fault c := by
  simp [arbStage, ha]

/-- R150: an operand that reads, under the old `rb`, is added to `rb` when the sum is in the range. -/
theorem arbStage_of_cellFits (ha : readParam s a = .ok va)
    (hf : s.realisation.cellFits (s.rb + va) = true) :
    arbStage a s = .next (s.pc + 2) false (s.setRb (s.rb + va)) := by
  simp [arbStage, ha, hf]

/-- R150: a new `rb` outside a finite realisation's range is refused. -/
theorem arbStage_of_not_cellFits (ha : readParam s a = .ok va)
    (hf : s.realisation.cellFits (s.rb + va) = false) :
    arbStage a s = .fault (.capacityValue (s.rb + va)) := by
  simp [arbStage, ha, hf]

end

/-- The dispatch of ARB commits the base offset stage. -/
theorem exec_arb (a : Param) (s : State) : exec (.arb a) s = commit s (arbStage a s) := rfl

/-- Settles O30: the encoding is the canonical word's, the completion commits the new `rb` and the
advanced `pc`, and both faults end the stage before `rb` is written. -/
theorem baseOffsetMeaning : Obligations.BaseOffsetMeaning := by
  refine ⟨fun a rest => decode_one_param (op := .arb) rfl a rest, fun s a va ha hrb hpc => ?_,
    fun s a c ha => ?_, fun s a va ha hrb => ?_⟩
  · rw [exec_arb, arbStage_of_cellFits ha hrb, commit, settle_next hpc]
    rfl
  · refine ⟨s.takeFault c, ?_, rfl, rfl, rfl⟩
    rw [exec_arb, arbStage_of_read_error ha, commit, settle_fault]
  · rw [exec_arb, arbStage_of_not_cellFits ha hrb]
    exact raises_commit_fault s _

end Sys2Proof.Machine

/-! ## Halt (46_halt.md R160, R161) -/

namespace Sys2Proof

/-- R61: what is added above the two lowest digits does not reach the opcode field. -/
theorem opcodeField_code_add (op : Opcode) (k : Int) : opcodeField (op.code + 100 * k) = op.code := by
  obtain ⟨hlo, hhi⟩ := op.code_range
  unfold opcodeField
  omega

/-- R66, R68: a word whose opcode field is Halt's is Halt, whatever its other digits are. -/
theorem decodeHead_of_opcodeField_hlt {w : Int} (h : opcodeField w = Opcode.hlt.code) :
    decodeHead w = .ok ⟨.hlt, []⟩ := by
  rw [decodeHead, h, opcodeOf_code]
  rfl

end Sys2Proof

namespace Sys2Proof.Machine

/-- The dispatch of HLT commits the Halt stage. -/
theorem exec_hlt (s : State) : exec .hlt s = commit s (.halted s) := rfl

/-- Settles O31: no mode digit of a Halt is looked at, and the Halt stage settles to `State.halt`. -/
theorem haltMeaning : Obligations.HaltMeaning := by
  refine ⟨fun k raws => ?_, fun s => ?_⟩
  · have hd : decodeHead (99 + 100 * k) = .ok ⟨.hlt, []⟩ :=
      decodeHead_of_opcodeField_hlt (opcodeField_code_add .hlt k)
    rw [decode, hd]
    rfl
  · rw [exec_hlt, commit, settle_halted]
    rfl

/-- R92, R161: the step of a halted machine reports Halt and keeps the state, whatever the producer
would answer. -/
theorem stepWith_of_halted {s : State} (h : s.status = .halted) (d : Int) :
    stepWith d s = (.halt, s) := by
  simp [stepWith, h]

/-- A state that steps to itself is where every run from it ends, for any machine behind the host's
interface. -/
theorem run_eq_self_of_step_eq_self {M : Host.Core} {s : M.State} (h : M.step s = .next s)
    (n : Nat) : M.run n s = .next s := by
  induction n with
  | zero => rfl
  | succ n ih => simp only [Host.Core.run, h, ih]

/-- Settles O10: a halted state steps to itself, so every run from it ends in it. -/
theorem haltedStaysHalted : Obligations.HaltedStaysHalted := by
  intro s h
  have hself : step s = .next s := by rw [step_eq_next_stepWith, stepWith_of_halted h]
  exact ⟨stepWith_of_halted h, run_eq_self_of_step_eq_self (M := core) hself⟩

end Sys2Proof.Machine

/-! ## A fault and a halt are told apart (60_exceptions.md R209) -/

namespace Sys2Proof.Machine

/-- The status a step leaves when it reports a halt or a fault (00_scope.md R12). -/
theorem stepWith_stop_status {d : Int} {s t : State} {o : StepOutcome} (h : stepWith d s = (o, t)) :
    (o = .halt → t.status = .halted) ∧ (∀ rec, o = .fault rec → t.status = .faulted) := by
  obtain ⟨hs, hw⟩ | ⟨hs, hw⟩ | ⟨_, c, hw⟩ |
      ⟨i, _, _, ⟨_, _, _, _, hw⟩ | ⟨_, hw⟩ | ⟨_, _, _, _, _, hw⟩⟩ := stepWith_cases d s <;>
    cases hw.symm.trans h
  case inl => simp [hs]
  case inr.inl => simp [hs]
  all_goals simp

/-- The replies of an iteration: of RUN by the step it took (R173), of RUN_UNTIL_OUTPUT and RUN_N by
the tests at the head of their loops, on a machine that takes no step in it (R174, R175). -/
theorem Port.advance_reply_cases {d : Int} {p q : Port} {r : Reply} (h : p.advance d = (q, some r)) :
    q.pending = none ∧
      ((p.pending = some .run ∧ stepWith d p.machine = (.halt, q.machine) ∧ r = .done q.machine.outq) ∨
        (∃ rec, p.pending = some .run ∧ stepWith d p.machine = (.fault rec, q.machine) ∧
          r = .fault rec) ∨
        (∃ rec, poll p.machine = .fault rec ∧ q.machine = p.machine ∧ r = .fault rec) ∨
        (poll p.machine = .noValue ∧ q.machine = p.machine ∧ r = .noValue) ∨
        (∃ v, p.pending = some .untilOutput ∧ poll p.machine = .value v q.machine ∧ r = .value v) ∨
        ∃ vs, p.pending = some (.untilN 0 vs) ∧ q.machine = p.machine ∧ r = .values vs) := by
  obtain ⟨s, pending⟩ := p
  unfold Port.advance at h
  rcases pending with _ | _ | _ | ⟨_ | n, vs⟩
  case none => cases h
  case some.run =>
    dsimp only at h
    split at h <;> cases h
    case h_3 hw => exact ⟨rfl, .inl ⟨rfl, hw, rfl⟩⟩
    case h_4 hw => exact ⟨rfl, .inr (.inl ⟨_, rfl, hw, rfl⟩)⟩
  case some.untilOutput =>
    dsimp only at h
    split at h <;> cases h
    case h_1 hp => exact ⟨rfl, .inr (.inr (.inl ⟨_, hp, rfl, rfl⟩))⟩
    case h_2 hp => exact ⟨rfl, .inr (.inr (.inr (.inr (.inl ⟨_, rfl, hp, rfl⟩))))⟩
    case h_3 hp => exact ⟨rfl, .inr (.inr (.inr (.inl ⟨hp, rfl, rfl⟩)))⟩
  case some.untilN.zero =>
    cases h
    exact ⟨rfl, .inr (.inr (.inr (.inr (.inr ⟨vs, rfl, rfl, rfl⟩))))⟩
  case some.untilN.succ =>
    dsimp only at h
    split at h <;> cases h
    case h_1 hp => exact ⟨rfl, .inr (.inr (.inl ⟨_, hp, rfl, rfl⟩))⟩
    case h_3 hp => exact ⟨rfl, .inr (.inr (.inr (.inl ⟨hp, rfl, rfl⟩)))⟩

/-- Settles O56: a reply of RUN is the outcome of its last step, and the others' replies are the tests
of a machine that is left as it is. -/
theorem faultIsNotHalt : Obligations.FaultIsNotHalt := by
  refine ⟨fun _ _ _ _ => stepWith_stop_status, fun d p q r h => ?_⟩
  obtain ⟨-, ⟨_, hw, rfl⟩ | ⟨rec, _, hw, rfl⟩ | ⟨rec, hp, hm, rfl⟩ | ⟨hp, hm, rfl⟩ | ⟨v, _, _, rfl⟩ |
    ⟨vs, _, _, rfl⟩⟩ := Port.advance_reply_cases h
  · simp [(stepWith_stop_status hw).1 rfl]
  · simp [(stepWith_stop_status hw).2 rec rfl]
  · simp [hm, (poll_fault hp).1]
  · simp [hm, (poll_noValue hp).1]
  · simp
  · simp

end Sys2Proof.Machine

/-! ## Encoding and decoding agree on whole instructions (30_encoding.md R62 to R71, R78) -/

namespace Sys2Proof

/-- R63: an instruction's word holds a mode for each parameter its operation has. -/
theorem Instr.head_modes_length (i : Instr) : i.head.modes.length = i.head.op.nparams := by
  cases i <;> rfl

/-- R72: an instruction is made again from its head and its raw cells, whatever cells follow. -/
theorem assemble_head_raws (i : Instr) (rest : List Int) :
    assemble i.head (i.raws ++ rest) = i := by
  cases i <;> rfl

/-- Settles O1: the decoder reads the head back from the word, and the head takes its raw cells from
the front of the list. -/
theorem decodeOfEncodeIsIdentity : Obligations.DecodeOfEncodeIsIdentity := by
  intro i rest
  rw [decode_encodeHead i.head_modes_length, assemble_head_raws]

/-- The digits below position `m` do not see a multiple of `10 ^ m`. -/
theorem digit_add_mul_pow {j m : Nat} (h : j < m) (w k : Int) :
    digit (w + k * 10 ^ m) j = digit w j := by
  obtain ⟨e, rfl⟩ := Nat.exists_eq_add_of_lt h
  have hw : w + k * 10 ^ (j + e + 1) = w + 10 ^ j * (10 * (k * 10 ^ e)) := by ring
  rw [digit, hw, Int.add_mul_ediv_left _ _ (by positivity), Int.add_mul_emod_self_left, digit]

/-- R61: the opcode field does not see a multiple of 100. -/
theorem opcodeField_add_mul_pow (n : Nat) (w k : Int) :
    opcodeField (w + k * 10 ^ (2 + n)) = opcodeField w := by
  have hw : w + k * 10 ^ (2 + n) = w + 100 * (k * 10 ^ n) := by ring
  rw [opcodeField, hw, Int.add_mul_emod_self_left, opcodeField]

/-- The mode stage reads nothing of the word but the digits of its own parameters. -/
theorem decodeModes_ok_congr {w w' : Int} {i n : Nat} {ms : List Mode}
    (hd : ∀ j, i ≤ j → j < i + n → modeDigit w' j = modeDigit w j)
    (h : decodeModes w i n = .ok ms) : decodeModes w' i n = .ok ms := by
  induction n generalizing i ms with
  | zero => exact h
  | succ n ih =>
    obtain ⟨m, rest, hm, hrest, rfl⟩ := decodeModes_succ_ok h
    have hm' : modeDigit w' i = m.code := (hd i le_rfl (by omega)).trans hm
    have hrest' := ih (fun j hij hj => hd j (by omega) (by omega)) hrest
    simp [decodeModes, hm', hrest']

/-- A word decodes to the head that its opcode field and its mode digits make. -/
theorem decodeHead_eq_ok {w : Int} {h : Head} (ho : opcodeField w = h.op.code)
    (hm : decodeModes w 0 h.op.nparams = .ok h.modes) : decodeHead w = .ok h := by
  simp [decodeHead, ho, hm]

/-- Settles O2: what is added lies above the opcode field and every mode digit that is read. -/
theorem digitsAboveTheModesAreIgnored : Obligations.DigitsAboveTheModesAreIgnored := by
  intro w k h hd
  obtain ⟨ho, hm⟩ := decodeHead_ok hd
  refine decodeHead_eq_ok ((opcodeField_add_mul_pow _ w k).trans ho) (decodeModes_ok_congr ?_ hm)
  exact fun j _ hj => digit_add_mul_pow (by omega) w k

/-- The low digits of a word, one more of them: the digit at `k` is put above the `k` lower ones. -/
theorem emod_pow_succ (w : Int) (k : Nat) :
    w % 10 ^ (k + 1) = w % 10 ^ k + digit w k * 10 ^ k := by
  have h1 := Int.emod_add_mul_ediv w (10 ^ k)
  have h2 := Int.emod_add_mul_ediv (w / 10 ^ k) 10
  have h3 := Int.emod_add_mul_ediv w (10 ^ (k + 1))
  have hq : w / 10 ^ (k + 1) = w / 10 ^ k / 10 := by
    rw [pow_succ, Int.ediv_ediv_of_nonneg (by positivity)]
  rw [hq] at h3
  unfold digit
  rw [pow_succ] at h3 ⊢
  linear_combination h3 - h1 - 10 ^ k * h2

/-- R78: decoded modes are encoded in the digits that they were read from. -/
theorem emod_add_encodeModes {w : Int} {i n : Nat} {ms : List Mode}
    (h : decodeModes w i n = .ok ms) :
    w % 10 ^ (i + 2) + encodeModes (i + 2) ms = w % 10 ^ (i + 2 + n) := by
  induction n generalizing i ms with
  | zero =>
    cases h
    exact add_zero _
  | succ n ih =>
    obtain ⟨m, rest, hm, hrest, rfl⟩ := decodeModes_succ_ok h
    have hlow : w % 10 ^ (i + 1 + 2) = w % 10 ^ (i + 2) + m.code * 10 ^ (i + 2) :=
      (emod_pow_succ w (i + 2)).trans (by rw [← hm, modeDigit])
    calc w % 10 ^ (i + 2) + encodeModes (i + 2) (m :: rest)
        = w % 10 ^ (i + 1 + 2) + encodeModes (i + 1 + 2) rest := by
          rw [hlow, encodeModes]
          exact (add_assoc _ _ _).symm
      _ = w % 10 ^ (i + 1 + 2 + n) := ih hrest
      _ = w % 10 ^ (i + 2 + (n + 1)) := by rw [show i + 1 + 2 + n = i + 2 + (n + 1) by omega]

/-- Settles O3: the opcode field and the decoded modes are all the digits that a canonical word
has. -/
theorem canonicalWordReencodes : Obligations.CanonicalWordReencodes := by
  rintro w h hd ⟨h0, hlt⟩
  obtain ⟨ho, hm⟩ := decodeHead_ok hd
  calc encodeHead h
      = w % 10 ^ (0 + 2) + encodeModes (0 + 2) h.modes := by rw [encodeHead, ← ho]; rfl
    _ = w % 10 ^ (2 + h.op.nparams) := emod_add_encodeModes hm
    _ = w := Int.emod_eq_of_lt h0 hlt

/-- R67: of the decimal digits, 3 to 9 name no mode. -/
theorem modeOf_eq_none_iff {d : Int} (h0 : 0 ≤ d) : modeOf d = none ↔ 3 ≤ d := by
  constructor
  · intro h
    by_contra hlt
    obtain rfl | rfl | rfl : d = 0 ∨ d = 1 ∨ d = 2 := by omega
    all_goals cases h
  · intro h
    rw [modeOf, if_neg (by omega), if_neg (by omega), if_neg (by omega)]

theorem modeDigit_nonneg (w : Int) (i : Nat) : 0 ≤ modeDigit w i := (digit_range w (i + 2)).1

/-- R67: a digit that names a mode is at most 2. -/
theorem le_two_of_modeOf_eq_some {d : Int} (h : ∃ m, modeOf d = some m) : d ≤ 2 := by
  obtain ⟨m, hm⟩ := h
  exact modeOf_eq_some.1 hm ▸ m.code_range.2

/-- R71: the mode stage reports the lowest parameter whose digit is above 2. -/
theorem decodeModes_eq_badMode_iff {w w' m : Int} {n p : Nat} :
    decodeModes w 0 n = .error (.badMode w' p m) ↔
      w' = w ∧ m = modeDigit w p ∧ 3 ≤ m ∧ p < n ∧ ∀ j, j < p → modeDigit w j ≤ 2 := by
  constructor
  · intro h
    obtain ⟨q, _, hqn, hbad, he, hlow⟩ := decodeModes_error h
    cases he
    exact ⟨rfl, rfl, (modeOf_eq_none_iff (modeDigit_nonneg w p)).1 hbad, by omega,
      fun j hj => le_two_of_modeOf_eq_some (hlow j (Nat.zero_le j) hj)⟩
  · rintro ⟨rfl, rfl, hbad, hpn, hlow⟩
    cases hm : decodeModes w' 0 n with
    | ok ms =>
      have hcode := decodeModes_getD_code hm hpn
      have hmax := (ms.getD p .position).code_range.2
      rw [hcode, Nat.zero_add] at hmax
      omega
    | error e =>
      obtain ⟨q, _, _, hqbad, rfl, hqlow⟩ := decodeModes_error hm
      have hq3 := (modeOf_eq_none_iff (modeDigit_nonneg w' q)).1 hqbad
      obtain hlt | rfl | hgt := Nat.lt_trichotomy p q
      · have := le_two_of_modeOf_eq_some (hqlow p (Nat.zero_le p) hlt)
        omega
      · rfl
      · have := hlow q hgt
        omega

/-- R67: BadMode is the answer for exactly the words whose operation has a parameter with a digit
above 2, and the lowest such parameter is named. -/
theorem decodeHead_eq_badMode_iff {w w' m : Int} {p : Nat} :
    decodeHead w = .error (.badMode w' p m) ↔
      ∃ op : Opcode, opcodeField w = op.code ∧
        decodeModes w 0 op.nparams = .error (.badMode w' p m) := by
  constructor
  · intro h
    obtain ⟨_, he⟩ | hop := decodeHead_error_cases h
    · cases he
    · exact hop
  · rintro ⟨op, ho, hm⟩
    simp [decodeHead, ho, hm]

/-- Settles O7: the decoder, run on the words of the spec's examples. -/
theorem specWordsDecode : Obligations.SpecWordsDecode :=
  ⟨rfl, rfl, rfl, rfl, rfl, rfl, rfl, rfl, rfl, rfl, rfl, rfl, rfl, rfl⟩

end Sys2Proof

namespace Sys2Proof.Machine

/-- Settles O6: the decoder answers BadMode for exactly those words, and a step raises whatever
decode error the fetched word has. -/
theorem badModeIsTheFirstBadDigit : Obligations.BadModeIsTheFirstBadDigit := by
  refine ⟨fun w w' p m => ?_, fun s e hr h0 hL ha hd =>
    raises_of_fetch_error hr (fetch_of_decodeHead_error h0 hL ha hd)⟩
  rw [decodeHead_eq_badMode_iff]
  constructor
  · rintro ⟨op, ho, hm⟩
    obtain ⟨hw, hd, h3, hp, hlow⟩ := decodeModes_eq_badMode_iff.1 hm
    exact ⟨hw, hd, h3, ⟨op, ho.symm, hp⟩, hlow⟩
  · rintro ⟨hw, hd, h3, ⟨op, ho, hp⟩, hlow⟩
    exact ⟨op, ho.symm, decodeModes_eq_badMode_iff.2 ⟨hw, hd, h3, hp, hlow⟩⟩

end Sys2Proof.Machine

/-! ## The invariant (10_state.md R25, 20_memory.md R55, 60_exceptions.md R207) -/

namespace Sys2Proof.Machine

theorem Memory.mem_push {a : Nat} {v : Int} {m : Memory} {c : Nat × Int}
    (h : c ∈ Memory.push a v m) : c = (a, v) ∨ c ∈ m := by
  unfold Memory.push at h
  split at h
  · exact .inr h
  · exact List.mem_cons.1 h

/-- A cell listed after a write is the written one or was listed before. -/
theorem Memory.mem_write {a : Nat} {v : Int} {m : Memory} {c : Nat × Int}
    (h : c ∈ m.write a v) : c = (a, v) ∨ c ∈ m := by
  induction m with
  | nil => exact Memory.mem_push h
  | cons d m ih =>
    obtain ⟨k, x⟩ := d
    unfold Memory.write at h
    split at h
    · exact Memory.mem_push h
    · split at h
      · exact (Memory.mem_push h).imp_right (List.mem_cons_of_mem _)
      · obtain rfl | hc := List.mem_cons.1 h
        · exact .inr List.mem_cons_self
        · exact (ih hc).imp_right (List.mem_cons_of_mem _)

/-- A completion writes no cell, or one that the realisation has, with a value that fits. -/
theorem Completes.mem_cases {d npc : Int} {s u : State} {i : Instr} {out : Bool}
    (h : Completes d s i npc out u) :
    u.mem = s.mem ∨ ∃ a v, storeAddr i s = some a ∧ s.realisation.addressable a = true ∧
      s.realisation.cellFits v = true ∧ u.mem = s.mem.write a v := by
  cases h with
  | store _ a v _ ha hin hv => exact .inr ⟨a, v, ha, hin, hv, rfl⟩
  | queued _ a v _ _ ha hin hv => exact .inr ⟨a, v, ha, hin, hv, rfl⟩
  | drawn _ a _ _ ha hin hv => exact .inr ⟨a, d, ha, hin, hv, rfl⟩
  | emit | jump | fall | rebase => exact .inl rfl

/-- A completion leaves a relative base that fits. -/
theorem Completes.rb_fits {d npc : Int} {s u : State} {i : Instr} {out : Bool}
    (h : Completes d s i npc out u) (hs : s.realisation.cellFits s.rb = true) :
    s.realisation.cellFits u.rb = true := by
  cases h with
  | rebase _ _ _ hv => exact hv
  | store | queued | drawn | emit | jump | fall => exact hs

/-- R25: a machine that is not faulted has no fault record. -/
theorem State.faultConsistent.fault_eq_none {s : State} (h : s.faultConsistent)
    (hs : s.status ≠ .faulted) : s.fault = none := by
  unfold State.faultConsistent at h
  split at h
  · assumption
  · exact absurd h.1 hs

theorem State.faultConsistent_of_fault_eq_none {s : State} (hf : s.fault = none)
    (hs : s.status ≠ .faulted) : s.faultConsistent := by
  simpa only [State.faultConsistent, hf] using hs

/-- R207: a fault entry keeps the invariant. -/
theorem State.Inv.takeFault {s : State} (h : s.Inv) (c : FaultCause) : (s.takeFault c).Inv :=
  ⟨h.canonical, ⟨rfl, rfl⟩, h.range⟩

/-- R160: a halt of a running machine keeps the invariant. -/
theorem State.Inv.halt {s : State} (h : s.Inv) (hr : s.status = .running) : s.halt.Inv :=
  ⟨h.canonical,
    State.faultConsistent_of_fault_eq_none (h.faults.fault_eq_none (by simp [hr])) (by simp),
    h.range⟩

/-- The queues are no part of the invariant. -/
theorem State.Inv.pushInput {s : State} (h : s.Inv) (v : Int) : (s.pushInput v).Inv :=
  ⟨h.canonical, h.faults, h.range⟩

/-- A committed completion of a running machine keeps the invariant. -/
theorem State.Inv.completes {d npc : Int} {s u : State} {i : Instr} {out : Bool} (h : s.Inv)
    (hr : s.status = .running) (hc : Completes d s i npc out u)
    (hn : s.realisation.cellFits npc = true) : (u.setPc npc).Inv := by
  obtain ⟨hst, hfl, _, _, _, hre⟩ := hc.keeps
  obtain ⟨hcells, _, hrb⟩ := h.range
  have hfault : s.fault = none := h.faults.fault_eq_none (by simp [hr])
  have hmem : u.mem.wf = true ∧
      ∀ c ∈ u.mem, s.realisation.addressable c.1 = true ∧ s.realisation.cellFits c.2 = true := by
    obtain hm | ⟨a, v, _, ha, hv, hm⟩ := hc.mem_cases
    · exact hm ▸ ⟨h.canonical, hcells⟩
    · refine hm ▸ ⟨Memory.wf_write a v h.canonical, fun c hcm => ?_⟩
      obtain rfl | hold := Memory.mem_write hcm
      · exact ⟨ha, hv⟩
      · exact hcells c hold
  refine ⟨hmem.1, State.faultConsistent_of_fault_eq_none (hfl.trans hfault) (by simp [hst, hr]), ?_⟩
  simp only [State.inRange, State.setPc_mem, State.setPc_realisation, State.setPc_pc,
    State.setPc_rb, hre]
  exact ⟨hmem.2, hn, hc.rb_fits hrb⟩

/-- Of all that a step can do, a fault entry, a halt and a completion keep the invariant, and
nothing else changes the state. -/
theorem State.Inv.stepWith {s : State} (h : s.Inv) (d : Int) : (Machine.stepWith d s).2.Inv := by
  obtain ⟨_, hw⟩ | ⟨_, hw⟩ | ⟨_, c, hw⟩ |
      ⟨i, hr, _, ⟨_, _, _, _, hw⟩ | ⟨_, hw⟩ | ⟨npc, out, u, hc, hn, hw⟩⟩ := stepWith_cases d s <;>
    rw [hw]
  · exact h
  · exact h
  · exact h.takeFault c
  · exact h
  · exact h.halt hr
  · exact h.completes hr hc hn

/-- Settles O32: the host's step is one of the steps that keep the invariant. -/
theorem stepKeepsTheInvariant : Obligations.StepKeepsTheInvariant := by
  intro s t hs h
  rw [step_eq_next_stepWith] at h
  exact Host.Outcome.next.inj h ▸ hs.stepWith _

/-- Settles O34: the reference realisation has every address and every value, and the memory of an
image is canonical. -/
theorem constructionMeetsTheInvariant : Obligations.ConstructionMeetsTheInvariant :=
  fun image pc0 inputs0 rb0 producer =>
    ⟨construct_wf Realisation.reference image pc0 inputs0 rb0 producer,
      State.faultConsistent_of_fault_eq_none rfl (by simp [construct]),
      fun _ _ => ⟨rfl, rfl⟩, rfl, rfl⟩

/-- Settles O33: the model's reset is a construction of the reference realisation. -/
theorem resetMeetsTheInvariant : Obligations.ResetMeetsTheInvariant :=
  constructionMeetsTheInvariant [] 0 [] 0 false

/-- Settles O35: the cells are the image's, and every other field is given. -/
theorem constructLeaves : Obligations.ConstructLeaves := by
  rintro r image pc0 inputs0 rb0 producer s rfl
  have hcell (a : Nat) :
      (construct r image pc0 inputs0 rb0 producer).cell a = image.getD a 0 := by
    have h := Memory.read_ofImage 0 a image
    rwa [Nat.zero_add] at h
  refine ⟨rfl, fun a ha => ?_, fun a ha => ?_, rfl, rfl, rfl, rfl, rfl, rfl, rfl⟩
  · simp [hcell, ha]
  · simp [hcell, ha]

end Sys2Proof.Machine

/-! ## The step: fetch, the status gate, the outcomes (40_dispatch_and_step.md R91 to R99) -/

namespace Sys2Proof

/-- An assembled instruction is as wide as its head says. -/
theorem assemble_width (h : Head) (raws : List Int) :
    (assemble h raws).width = 1 + h.op.nparams := by
  obtain ⟨op, modes⟩ := h
  cases op <;> rfl

/-- An instruction has no parameters but its operation's. -/
theorem instr_congr {op : Opcode} {p q : Nat → Param} (h : ∀ k, k < op.nparams → p k = q k) :
    op.instr p = op.instr q := by
  cases op with
  | add | mul | lt | eq =>
    simp only [Opcode.instr, h 0 (by decide), h 1 (by decide), h 2 (by decide)]
  | jt | jf => simp only [Opcode.instr, h 0 (by decide), h 1 (by decide)]
  | inp | out | arb => simp only [Opcode.instr, h 0 (by decide)]
  | hlt => rfl

/-- A head takes no raw cells but its own. -/
theorem assemble_congr {h : Head} {xs ys : List Int}
    (hxy : ∀ k, k < h.op.nparams → xs.getD k 0 = ys.getD k 0) : assemble h xs = assemble h ys :=
  instr_congr fun k hk => by rw [paramAt, paramAt, hxy k hk]

theorem decode_ok {w : Int} {raws : List Int} {i : Instr} (h : decode w raws = .ok i) :
    ∃ hd, decodeHead w = .ok hd ∧ i = assemble hd raws := by
  unfold decode at h
  split at h
  · cases h
  next hd hhd => exact ⟨hd, hhd, (Except.ok.inj h).symm⟩

theorem Opcode.nparams_le_three (op : Opcode) : op.nparams ≤ 3 := by
  cases op <;> decide

end Sys2Proof

namespace Sys2Proof.Machine

/-- R71: cells that the realisation has are read. -/
theorem readCells_eq_ok {s : State} {addr : Int} {n : Nat} (h0 : 0 ≤ addr)
    (ha : ∀ k, k < n → s.realisation.addressable (addr.toNat + k) = true) :
    ∃ vs, readCells s addr n = .ok vs := by
  induction n generalizing addr with
  | zero => exact ⟨[], rfl⟩
  | succ n ih =>
    have hfirst := memRead_eq_ok h0 (ha 0 n.succ_pos)
    obtain ⟨vs, hvs⟩ := ih (addr := addr + 1) (by omega) fun k hk => by
      rw [show (addr + 1).toNat + k = addr.toNat + (k + 1) by omega]
      exact ha (k + 1) (by omega)
    exact ⟨s.cell addr.toNat :: vs, by simp [readCells, hfirst, hvs]⟩

/-- R93, R94: inside the image, the fetch gives the instruction that the word makes with the cells
after it, wherever these lie. -/
theorem fetch_of_decode {s : State} {i : Instr} (h0 : 0 ≤ s.pc) (hL : s.pc < s.imageLen)
    (ha : s.realisation.addressable (s.pc.toNat + i.width - 1) = true)
    (hd : decode (s.cell s.pc.toNat)
      [s.cell (s.pc.toNat + 1), s.cell (s.pc.toNat + 2), s.cell (s.pc.toNat + 3)] = .ok i) :
    fetch s = .ok i := by
  obtain ⟨head, hhead, rfl⟩ := decode_ok hd
  rw [assemble_width] at ha
  have hword := memRead_eq_ok h0 (addressable_of_le ha (by omega))
  obtain ⟨raws, hraws⟩ := readCells_eq_ok (s := s) (addr := s.pc + 1) (n := head.op.nparams)
    (by omega) fun k hk => addressable_of_le ha (by omega)
  have hcells (k : Nat) (hk : k < head.op.nparams) : raws.getD k 0 =
      [s.cell (s.pc.toNat + 1), s.cell (s.pc.toNat + 2), s.cell (s.pc.toNat + 3)].getD k 0 := by
    rw [(readCells_ok hraws).2 k hk, show (s.pc + 1 + k).toNat = s.pc.toNat + 1 + k by omega]
    have hk3 : k < 3 := lt_of_lt_of_le hk head.op.nparams_le_three
    interval_cases k <;> rfl
  have hdec : decodeAt s = .ok (assemble head raws) := by simp [decodeAt, hword, hhead, hraws]
  rw [fetch, if_neg (by omega), if_neg (by omega), hdec, assemble_congr hcells]

/-- Settles O8: the step executes what the fetch gives. -/
theorem stepRunsDecodedInstruction : Obligations.StepRunsDecodedInstruction :=
  fun _ _ hr h0 hL ha hd => step_of_fetch hr (fetch_of_decode h0 hL ha hd)

/-- R93: the first fetch check. -/
theorem fetch_of_pc_neg {s : State} (h : s.pc < 0) : fetch s = .error (.invalidAddress s.pc) :=
  if_pos h

/-- R93: the second fetch check. -/
theorem fetch_of_imageLen_le_pc {s : State} (h0 : 0 ≤ s.pc) (hL : s.imageLen ≤ s.pc) :
    fetch s = .error (.outOfBounds s.pc) := by
  rw [fetch, if_neg (by omega), if_pos hL]

/-- Settles O9: a running machine raises what its fetch checks raise. -/
theorem fetchChecksPc : Obligations.FetchChecksPc := fun _ hr =>
  ⟨fun hneg => raises_of_fetch_error hr (fetch_of_pc_neg hneg),
    fun h0 hL => raises_of_fetch_error hr (fetch_of_imageLen_le_pc h0 hL)⟩

/-- Settles O36: the empty image has no cell to fetch from. -/
theorem resetIsTheDefaultConstruction : Obligations.ResetIsTheDefaultConstruction :=
  ⟨rfl, raises_of_fetch_error rfl (fetch_of_imageLen_le_pc le_rfl le_rfl)⟩

/-! ### The status gate -/

/-- R92: a faulted machine reports its record again and keeps its state, whatever the producer would
answer. -/
theorem stepWith_of_faulted {s : State} (h : s.status = .faulted) (d : Int) :
    stepWith d s = (.fault s.fault, s) := by
  simp [stepWith, h]

theorem step_of_faulted {s : State} (h : s.status = .faulted) : step s = .next s := by
  rw [step_eq_next_stepWith, stepWith_of_faulted h]

/-- Settles O11: a faulted state steps to itself, so every run from it ends in it. -/
theorem faultedRepeatsItsFault : Obligations.FaultedRepeatsItsFault := fun _ h =>
  ⟨stepWith_of_faulted h, run_eq_self_of_step_eq_self (M := core) (step_of_faulted h)⟩

/-- Settles O12: the host's step answers the state of `stepWith`. -/
theorem stepIsTotal : Obligations.StepIsTotal := fun s => ⟨_, step_eq_next_stepWith s⟩

/-- Settles O13: `step` drops the outcome of `stepWith`, and nothing else. -/
theorem stepIsTheSpecsStep : Obligations.StepIsTheSpecsStep := step_eq_next_stepWith

/-- A run of one step more goes on from the state after the first. -/
theorem run_succ_of_step {s t : State} (h : step s = .next t) (n : Nat) :
    core.run (n + 1) s = core.run n t := by
  have hcore : core.step s = .next t := h
  simp only [Host.Core.run, hcore]

/-- Settles O46: by induction on the length of the run; a fault on the way would still be there at
the end. -/
theorem safeRunReachesNoFault : Obligations.SafeRunReachesNoFault := by
  intro n
  induction n with
  | zero =>
    intro s
    exact ⟨fun h => ⟨s, rfl, h⟩, fun ⟨_, hrun, hne⟩ => Host.Outcome.next.inj hrun ▸ hne⟩
  | succ n ih =>
    intro s
    obtain ⟨t, ht⟩ := stepIsTotal s
    rw [run_succ_of_step ht, ← ih t]
    constructor
    · exact fun ⟨_, hrest⟩ => hrest t ht
    · refine fun hrest => ⟨fun hf => ?_,
        fun u hu => Host.Outcome.next.inj (ht.symm.trans hu) ▸ hrest⟩
      obtain rfl := Host.Outcome.next.inj (ht.symm.trans (step_of_faulted hf))
      obtain ⟨u, hrun, hne⟩ := (ih t).1 hrest
      rw [(faultedRepeatsItsFault t hf).2 n] at hrun
      exact hne (Host.Outcome.next.inj hrun ▸ hf)

/-! ### What the outcome and the next state say -/

/-- R27: the completion that emits is Output's, and it appends its operand. -/
theorem Completes.outq_cases {d npc : Int} {s u : State} {i : Instr} {out : Bool}
    (h : Completes d s i npc out u) :
    (out = false ∧ u.outq = s.outq) ∨
      ∃ a v, out = true ∧ i = .out a ∧ readParam s a = .ok v ∧ u.outq = s.outq ++ [v] := by
  cases h with
  | emit a v hv => exact .inr ⟨a, v, rfl, rfl, hv, rfl⟩
  | store | queued | drawn | jump | fall | rebase => exact .inl ⟨rfl, rfl⟩

/-- R12: a completion reports an output exactly when it appends a value. -/
theorem Completes.out_iff {d npc : Int} {s u : State} {i : Instr} {out : Bool}
    (h : Completes d s i npc out u) :
    (out = true ↔ ∃ v, u.outq = s.outq ++ [v]) ∧ (out = false → u.outq = s.outq) := by
  obtain ⟨rfl, hq⟩ | ⟨_, v, rfl, _, _, hq⟩ := h.outq_cases
  · simp [hq]
  · simp [hq]

/-- Settles O14: each way a step can end has its own outcome. -/
theorem outcomesTellTheState : Obligations.OutcomesTellTheState := by
  intro d s t o h
  obtain ⟨hs, hw⟩ | ⟨hs, hw⟩ | ⟨_, c, hw⟩ |
      ⟨i, hr, _, ⟨_, _, hq, hp, hw⟩ | ⟨_, hw⟩ | ⟨_, out, u, hc, _, hw⟩⟩ := stepWith_cases d s <;>
    obtain ⟨rfl, rfl⟩ := Prod.mk.inj (h.symm.trans hw)
  case inl => simp [hs]
  case inr.inl => simp [hs]
  case inr.inr.inl => simp
  case inr.inr.inr.inl => simp [hr, hq, hp]
  case inr.inr.inr.inr.inl => simp
  case inr.inr.inr.inr.inr =>
    obtain ⟨hiff, hfalse⟩ := hc.out_iff
    refine ⟨fun out' ho => ?_, by simp, by simp, by simp⟩
    obtain rfl := StepOutcome.stepped.inj ho
    exact ⟨hr, hc.keeps.1.trans hr, hiff, hfalse⟩

/-- Settles O40: of all that a step can do, only the completion of Output moves the output queue. -/
theorem onlyOutputAppends : Obligations.OnlyOutputAppends := by
  intro s t h
  obtain rfl | ⟨_, c, rfl⟩ | ⟨_, _, rfl⟩ | ⟨i, npc, out, u, hr, hf, hc, _, rfl⟩ := step_next_cases h
  · exact .inl rfl
  · exact .inl rfl
  · exact .inl rfl
  · obtain ⟨_, hq⟩ | ⟨a, v, _, rfl, hv, hq⟩ := hc.outq_cases
    · exact .inl hq
    · exact .inr ⟨a, v, hr, hf, hv, hq⟩

/-- Settles O37: no way a step can end touches a constant. -/
theorem stepKeepsTheConstants : Obligations.StepKeepsTheConstants := by
  intro s t h
  obtain rfl | ⟨_, c, rfl⟩ | ⟨_, _, rfl⟩ | ⟨i, npc, out, u, _, _, hc, _, rfl⟩ := step_next_cases h
  · exact ⟨rfl, rfl, rfl⟩
  · exact ⟨rfl, rfl, rfl⟩
  · exact ⟨rfl, rfl, rfl⟩
  · obtain ⟨_, _, _, hkept⟩ := hc.keeps
    exact hkept

/-- A completion leaves every cell but its write target. -/
theorem Completes.cell_of_ne {d npc : Int} {s u : State} {i : Instr} {out : Bool} {b : Nat}
    (h : Completes d s i npc out u) (hs : s.memCanonical) (hb : storeAddr i s ≠ some b) :
    u.cell b = s.cell b := by
  obtain hm | ⟨a, v, ha, _, _, hm⟩ := h.mem_cases
  · rw [State.cell, hm, State.cell]
  · have hne : a ≠ b := fun hab => hb (hab ▸ ha)
    rw [State.cell, hm, Memory.read_write a v b hs, if_neg hne, State.cell]

/-- Settles O41: of all that a step can do, only a completion writes memory, at its write target. -/
theorem storesOnlyToTheTarget : Obligations.StoresOnlyToTheTarget := by
  intro s t b hs h hb
  obtain rfl | ⟨_, c, rfl⟩ | ⟨_, _, rfl⟩ | ⟨i, npc, out, u, hr, hf, hc, _, rfl⟩ := step_next_cases h
  · rfl
  · rfl
  · rfl
  · exact hc.cell_of_ne hs (hb i hr hf)

/-- Settles O42: of all that a step of a running machine can do, only the fault entry leaves it
faulted. -/
theorem faultsArePrecise : Obligations.FaultsArePrecise := by
  intro s t hr h hf
  obtain rfl | ⟨_, c, rfl⟩ | ⟨_, _, rfl⟩ | ⟨i, npc, out, u, _, _, hc, _, rfl⟩ := step_next_cases h
  · cases hr.symm.trans hf
  · exact ⟨c, rfl⟩
  · cases hf
  · cases (hc.keeps.1.trans hr).symm.trans hf

/-- All that an instruction can leave: a fault entry, a held Input's unchanged state, a halt, or a
committed completion. -/
theorem exec_next_cases {i : Instr} {s t : State} (h : exec i s = .next t) :
    (∃ c, t = s.takeFault c) ∨
      (∃ dst, i = .inp dst ∧ s.inq = [] ∧ s.producerPresent = false ∧ t = s) ∨
      (i = .hlt ∧ t = s.halt) ∨
      ∃ npc out u, Completes (Config.producerAnswer s.draws) s i npc out u ∧ t = u.setPc npc := by
  rw [exec_eq_commit] at h
  obtain rfl := Host.Outcome.next.inj h
  obtain ⟨c, he⟩ | ⟨dst, hi, hq, hp, he⟩ | ⟨hi, he⟩ | ⟨npc, out, u, hc, he⟩ :=
    execute_cases (Config.producerAnswer s.draws) i s
  · exact .inl ⟨c, by rw [he, settle_fault]⟩
  · exact .inr (.inl ⟨dst, hi, hq, hp, by rw [he, settle_hold]⟩)
  · exact .inr (.inr (.inl ⟨hi, by rw [he, settle_halted]⟩))
  · by_cases hn : s.realisation.cellFits npc = true
    · exact .inr (.inr (.inr ⟨npc, out, u, hc, by rw [he, settle_next hn]⟩))
    · exact .inl ⟨_, by rw [he, settle_next_capacity (by simpa using hn)]⟩

/-- R22: a completion goes on after itself, or it is a taken jump. -/
theorem Completes.npc_cases {d npc : Int} {s u : State} {i : Instr} {out : Bool}
    (h : Completes d s i npc out u) :
    npc = s.pc + i.width ∨ ∃ a b, (i = .jt a b ∨ i = .jf a b) ∧ readParam s b = .ok npc := by
  cases h with
  | store _ _ _ hi => exact .inl (by rw [hi]; rfl)
  | jump _ a b _ hi hb => exact .inr ⟨a, b, hi, hb⟩
  | fall _ a b hi =>
    obtain rfl | rfl := hi
    · exact .inl rfl
    · exact .inl rfl
  | queued | drawn | emit | rebase => exact .inl rfl

/-- Settles O45: what leaves a machine running is a completion or a hold. -/
theorem pcMovesByWidthOrJump : Obligations.PcMovesByWidthOrJump := by
  intro s t i hr hf h ht
  rw [step_of_fetch hr hf] at h
  obtain ⟨c, rfl⟩ | hheld | ⟨_, rfl⟩ | ⟨npc, out, u, hc, rfl⟩ := exec_next_cases h
  · cases ht
  · exact .inr (.inr hheld)
  · cases ht
  · obtain hn | hj := hc.npc_cases
    · exact .inl hn
    · exact .inr (.inl hj)

/-! ### The fault table and the finite realisation (60_exceptions.md R200, R205) -/

/-- Settles O43: each column is a function of the cause. -/
theorem faultTableColumns : Obligations.FaultTableColumns := by
  rintro ⟨cause, pc⟩
  refine ⟨?_, ?_, ?_, ?_, ?_, ?_, ?_⟩
  case refine_1 | refine_2 =>
    intros
    subst_vars
    exact ⟨rfl, rfl, rfl, rfl⟩
  all_goals
    rintro x rfl
    exact ⟨rfl, rfl, rfl, rfl⟩

/-- R55: there is no cell to read at or above the capacity. -/
theorem memRead_of_not_addressable {s : State} {addr : Int} (h0 : 0 ≤ addr)
    (ha : s.realisation.addressable addr.toNat = false) :
    memRead s addr = .error (.capacityAddr addr) := by
  rw [memRead, if_neg (by omega), if_neg (by simp [ha])]

/-- R55, log 8: there is no cell to write at or above the capacity, whatever the value. -/
theorem memWrite_of_not_addressable {s : State} {addr : Int} (h0 : 0 ≤ addr)
    (ha : s.realisation.addressable addr.toNat = false) (v : Int) :
    memWrite s addr v = .error (.capacityAddr addr) := by
  rw [memWrite, if_neg (by omega), if_pos (by simp [ha])]

/-- Settles O19: the checks of a read and of a write, in their order, and the commit's check of the
next `pc`. -/
theorem capacityExceededIsRaised : Obligations.CapacityExceededIsRaised := by
  refine ⟨fun s a v h0 ha =>
      ⟨memRead_of_not_addressable h0 ha, memWrite_of_not_addressable h0 ha v⟩,
    fun s a v h0 ha hv => memWrite_of_not_cellFits h0 ha hv,
    fun d s i npc out t hr hf he hn => ?_⟩
  rw [stepWith_of_fetch hr hf d, he, settle_next_capacity hn]
  rfl

end Sys2Proof.Machine

/-! ## The input instruction (42_io.md R120, R121; 40_dispatch_and_step.md R99) -/

namespace Sys2Proof.Machine

section
variable {d : Int} {s : State} {v : Int}

/-- R121: the front of the queue is taken first, whatever the producer would answer. -/
theorem acquireInput_of_queued {rest : List Int} (hq : s.inq = v :: rest) :
    acquireInput d s = .value v (s.setInq rest) := by
  simp [acquireInput, hq]

/-- R121: with nothing queued the producer answers. -/
theorem acquireInput_of_producer (hq : s.inq = []) (hp : s.producerPresent = true) :
    acquireInput d s = .value d s.drawn := by
  simp [acquireInput, hq, hp]

/-- R121: with nothing queued and no producer there is a hold. -/
theorem acquireInput_of_nothing (hq : s.inq = []) (hp : s.producerPresent = false) :
    acquireInput d s = .hold := by
  simp [acquireInput, hq, hp]

end

section
variable {d : Int} {dst : Param} {s u : State} {addr v : Int} {c : FaultCause}

/-- R120: the target is resolved before anything else. -/
theorem inpStage_of_target_error (hd : writeAddr s 0 dst = .error c) :
    inpStage d dst s = .fault c := by
  simp [inpStage, hd]

/-- R120: a negative target address faults before any input is taken. -/
theorem inpStage_of_negative_target (hd : writeAddr s 0 dst = .ok addr) (hneg : addr < 0) :
    inpStage d dst s = .fault (.invalidAddress addr) := by
  simp [inpStage, hd, hneg]

/-- R99: a good target and nothing to take is a hold. -/
theorem inpStage_of_hold (hd : writeAddr s 0 dst = .ok addr) (h0 : 0 ≤ addr)
    (hacq : acquireInput d s = .hold) : inpStage d dst s = .hold := by
  simp [inpStage, hd, not_lt.2 h0, hacq]

/-- R120: the write of the acquired value can fault still. -/
theorem inpStage_of_write_error (hd : writeAddr s 0 dst = .ok addr) (h0 : 0 ≤ addr)
    (hacq : acquireInput d s = .value v u) (hw : memWrite u addr v = .error c) :
    inpStage d dst s = .fault c := by
  simp [inpStage, hd, not_lt.2 h0, hacq, hw]

/-- R120: an acquired value that can be written is committed with the advanced `pc`. -/
theorem settle_inpStage_of_value (hd : writeAddr s 0 dst = .ok addr) (h0 : 0 ≤ addr)
    (hacq : acquireInput d s = .value v u) (ha : u.realisation.addressable addr.toNat = true)
    (hv : u.realisation.cellFits v = true) (hpc : s.realisation.cellFits (s.pc + 2) = true) :
    settle s (inpStage d dst s) =
      (.stepped false, (u.store addr.toNat v).setPc (s.pc + 2)) := by
  have hstage : inpStage d dst s = .next (s.pc + 2) false (u.store addr.toNat v) := by
    simp [inpStage, hd, not_lt.2 h0, hacq, memWrite_eq_ok h0 ha hv]
  rw [hstage, settle_next hpc]

end

/-- The dispatch of IN commits the Input stage under the producer answer of log 4. -/
theorem exec_inp (dst : Param) (s : State) :
    exec (.inp dst) s = .next (settle s (inpStage (Config.producerAnswer s.draws) dst s)).2 := rfl

theorem exec_inp_of_settle {dst : Param} {s t : State} {o : StepOutcome}
    (h : settle s (inpStage (Config.producerAnswer s.draws) dst s) = (o, t)) :
    exec (.inp dst) s = .next t := by
  rw [exec_inp, h]

/-- A store into a state with the memory of `s` is the only change of memory that is seen. -/
theorem storesOnly_store {s u : State} (hs : s.memCanonical) (hm : u.mem = s.mem) (a : Nat)
    (v npc : Int) : StoresOnly s ((u.store a v).setPc npc) a v := by
  have hcell (b : Nat) : ((u.store a v).setPc npc).cell b = if a = b then v else s.cell b := by
    rw [State.setPc_cell, State.store_cell u a v b (hm ▸ hs), State.cell, hm, State.cell]
  exact ⟨by rw [hcell, if_pos rfl], fun b hb => by rw [hcell, if_neg hb.symm]⟩

/-- Settles O24: both acquisitions leave the memory alone, and the stored value is the acquired
one. -/
theorem inputCompletes : Obligations.InputCompletes := by
  intro s dst addr hs hd h0 ha hpc
  have hdrawn {d : Int} (hq : s.inq = []) (hp : s.producerPresent = true)
      (hv : s.realisation.cellFits d = true) := settle_inpStage_of_value (u := s.drawn) hd h0
    (acquireInput_of_producer hq hp) ha hv hpc
  refine ⟨fun v rest hq hv => ?_, fun hq hp hv => ?_, fun hq hp hr hf d hv => ?_⟩
  · have hset (d : Int) := settle_inpStage_of_value (u := s.setInq rest) hd h0
      (acquireInput_of_queued (d := d) hq) ha hv hpc
    exact ⟨_, exec_inp_of_settle (hset _), rfl, storesOnly_store hs rfl _ _ (s.pc + 2),
      fun hr hf d => (stepWith_of_fetch hr hf d).trans (hset d)⟩
  · exact ⟨_, exec_inp_of_settle (hdrawn hq hp hv), rfl, storesOnly_store hs rfl _ _ (s.pc + 2)⟩
  · exact ⟨_, (stepWith_of_fetch hr hf d).trans (hdrawn hq hp hv), rfl,
      storesOnly_store hs rfl _ _ (s.pc + 2)⟩

/-! ### What a fetch reads -/

section
variable {s t : State}

theorem memRead_congr (hm : t.mem = s.mem) (hr : t.realisation = s.realisation) (addr : Int) :
    memRead t addr = memRead s addr := by
  simp only [memRead, State.cell, hm, hr]

theorem readCells_congr (hm : t.mem = s.mem) (hr : t.realisation = s.realisation) (addr : Int)
    (n : Nat) : readCells t addr n = readCells s addr n := by
  induction n generalizing addr with
  | zero => rfl
  | succ n ih => simp only [readCells, memRead_congr hm hr, ih]

/-- The fetch reads the memory, `pc` and `L`, and no register or queue besides. -/
theorem fetch_congr (hm : t.mem = s.mem) (hr : t.realisation = s.realisation) (hpc : t.pc = s.pc)
    (hL : t.imageLen = s.imageLen) : fetch t = fetch s := by
  simp only [fetch, decodeAt, memRead_congr hm hr, readCells_congr hm hr, hpc, hL]

end

/-- A value pushed into an empty queue and taken again leaves the state it was pushed into. -/
theorem State.setInq_pushInput_of_nil {s : State} (hq : s.inq = []) (v : Int) :
    (s.pushInput v).setInq [] = s := by
  rw [← hq]
  rfl

/-- Settles O25: the hold is the Input stage's with nothing to take, and after the push the same
Input takes the pushed value. -/
theorem pushLiftsTheHold : Obligations.PushLiftsTheHold := by
  intro s dst addr v hs hr hf hd h0 ha hv hpc hq hp
  have hheld (d : Int) : stepWith d s = (.held, s) := by
    rw [stepWith_of_fetch hr hf d, execute, inpStage_of_hold hd h0 (acquireInput_of_nothing hq hp),
      settle_hold]
  have hfetch : fetch (s.pushInput v) = .ok (.inp dst) :=
    (fetch_congr (s := s) (t := s.pushInput v) rfl rfl rfl rfl).trans hf
  have hacq : acquireInput (Config.producerAnswer (s.pushInput v).draws) (s.pushInput v) =
      .value v s := by
    rw [acquireInput_of_queued (rest := []) (by rw [State.pushInput_inq, hq]; rfl),
      State.setInq_pushInput_of_nil hq]
  have hset :=
    settle_inpStage_of_value (s := s.pushInput v) (dst := dst) (u := s) hd h0 hacq ha hv hpc
  exact ⟨hheld, by rw [step_eq_next_stepWith, hheld], _,
    (step_of_fetch (s := s.pushInput v) hr hfetch).trans (exec_inp_of_settle hset), rfl,
    storesOnly_store hs rfl _ _ (s.pc + 2)⟩

/-- A fault of the Input stage takes no input. -/
theorem exec_inp_of_fault {dst : Param} {s : State} {c : FaultCause}
    (h : inpStage (Config.producerAnswer s.draws) dst s = .fault c) :
    ∃ t, exec (.inp dst) s = .next t ∧ t.inq = s.inq ∧ t.draws = s.draws ∧ t.status = .faulted ∧
      t.fault = some { cause := c, pc := s.pc } :=
  ⟨s.takeFault c, exec_inp_of_settle (h ▸ settle_fault s c), rfl, rfl, rfl, rfl⟩

/-- Settles O26: a fault entry keeps the queue and the counter, and each fault is the Input
stage's. -/
theorem inputChecksItsTargetFirst : Obligations.InputChecksItsTargetFirst := by
  refine fun s dst => ⟨fun t hs h ht => ?_, fun hm => ?_, fun addr hd => ⟨fun hneg => ?_,
    fun h0 v hv => ?_⟩⟩
  · obtain ⟨c, rfl⟩ | ⟨_, _, _, _, rfl⟩ | ⟨hi, _⟩ | ⟨npc, out, u, hc, rfl⟩ := exec_next_cases h
    · exact ⟨rfl, rfl⟩
    · exact ⟨rfl, rfl⟩
    · cases hi
    · exact absurd (hc.keeps.1.symm.trans ht) hs
  · exact exec_inp_of_fault (inpStage_of_target_error
      (writeAddr_of_effectiveAddr_none (effectiveAddr_of_immediate hm) 0))
  · exact exec_inp_of_fault (inpStage_of_negative_target hd hneg)
  · obtain ⟨u, hacq, hu⟩ := acquireInput_storeValue hv
    have hr : u.realisation = s.realisation := by
      obtain rfl | ⟨_, rfl⟩ := hu <;> rfl
    rw [← hr]
    exact ⟨fun ha => exec_inp_of_fault
        (inpStage_of_write_error hd h0 hacq (memWrite_of_not_addressable h0 ha v)),
      fun ha hf => exec_inp_of_fault
        (inpStage_of_write_error hd h0 hacq (memWrite_of_not_cellFits h0 ha hf))⟩

/-! ### Self-modifying code (70_reset_and_hazards.md R235, R236) -/

/-- Settles O47: the instruction stores the word and goes on to it, so the next fetch reads it. -/
theorem nextFetchSeesTheWrite : Obligations.NextFetchSeesTheWrite := by
  intro d s i v hs hr hf hsa hsv hL ha hv hpc
  obtain ⟨h0, _, _⟩ := fetch_ok hf
  have hwidth : 0 < i.width := by rw [Instr.width, Opcode.width]; omega
  obtain ⟨u, he, hu⟩ := execute_stores hsa (by omega) hsv ha hv
  obtain ⟨hum, huL, hur, hust⟩ : u.mem = s.mem ∧ u.imageLen = s.imageLen ∧
      u.realisation = s.realisation ∧ u.status = s.status := by
    obtain rfl | rfl | ⟨_, rfl⟩ := hu <;> exact ⟨rfl, rfl, rfl, rfl⟩
  have hnat : (s.pc + i.width).toNat = s.pc.toNat + i.width := by omega
  refine ⟨(u.store (s.pc.toNat + i.width) v).setPc (s.pc + i.width),
    by rw [stepWith_of_fetch hr hf d, he, settle_next hpc], rfl, hust.trans hr, ?_⟩
  generalize ht : (u.store (s.pc.toNat + i.width) v).setPc (s.pc + i.width) = t
  have hcell : t.cell t.pc.toNat = v := by
    rw [← ht, State.setPc_pc, hnat]
    exact (storesOnly_store hs hum _ _ _).1
  have htr : t.status = .running := ht ▸ hust.trans hr
  have ht0 : 0 ≤ t.pc := by rw [← ht, State.setPc_pc]; omega
  have htL : t.pc < t.imageLen := by rw [← ht]; simpa [huL] using hL
  have hta : t.realisation.addressable t.pc.toNat = true := by
    rw [← ht, State.setPc_pc, hnat]
    exact hur ▸ ha
  exact ⟨hcell,
    fun e hd => raises_of_fetch_error htr (fetch_of_decodeHead_error ht0 htL hta (hcell ▸ hd)),
    fun j hj hd => step_of_fetch htr (fetch_of_decode ht0 htL hj (hcell.symm ▸ hd))⟩

/-! ### The reference realisation (60_exceptions.md R205) -/

/-- The cause is none of the two of CapacityExceeded, wherever the fault is taken. -/
def FaultCause.isNotCapacity (c : FaultCause) : Prop :=
  ∀ pc, (FaultRecord.mk c pc).kind ≠ .capacityExceeded

theorem isNotCapacity_decode (e : DecodeError) : (FaultCause.decode e).isNotCapacity := nofun

theorem isNotCapacity_invalidWriteTarget (i : Nat) :
    (FaultCause.invalidWriteTarget i).isNotCapacity := nofun

theorem isNotCapacity_invalidAddress (a : Int) :
    (FaultCause.invalidAddress a).isNotCapacity := nofun

theorem isNotCapacity_outOfBounds (p : Int) : (FaultCause.outOfBounds p).isNotCapacity := nofun

section
variable {s : State} (href : s.realisation = Realisation.reference)
include href

theorem memRead_error_isNotCapacity {addr : Int} {c : FaultCause} (h : memRead s addr = .error c) :
    c.isNotCapacity := by
  unfold memRead at h
  split at h
  · cases h
    exact isNotCapacity_invalidAddress addr
  · simp [href] at h

theorem memWrite_error_isNotCapacity {addr v : Int} {c : FaultCause}
    (h : memWrite s addr v = .error c) : c.isNotCapacity := by
  unfold memWrite at h
  split at h
  · cases h
    exact isNotCapacity_invalidAddress addr
  · simp [href] at h

theorem readCells_error_isNotCapacity {addr : Int} {n : Nat} {c : FaultCause}
    (h : readCells s addr n = .error c) : c.isNotCapacity := by
  induction n generalizing addr with
  | zero => cases h
  | succ n ih =>
    unfold readCells at h
    split at h
    next hv =>
      cases h
      exact memRead_error_isNotCapacity href hv
    · split at h
      next hrest =>
        cases h
        exact ih hrest
      · cases h

theorem readParam_error_isNotCapacity {p : Param} {c : FaultCause} (h : readParam s p = .error c) :
    c.isNotCapacity := by
  unfold readParam at h
  split at h
  · cases h
  · exact memRead_error_isNotCapacity href h

/-- R205: a fetch of the reference machine faults for another reason. -/
theorem fetch_error_isNotCapacity {c : FaultCause} (h : fetch s = .error c) : c.isNotCapacity := by
  unfold fetch at h
  split at h
  · cases h
    exact isNotCapacity_invalidAddress _
  · split at h
    · cases h
      exact isNotCapacity_outOfBounds _
    · unfold decodeAt at h
      split at h
      next hw =>
        cases h
        exact memRead_error_isNotCapacity href hw
      · split at h
        · cases h
          exact isNotCapacity_decode _
        · split at h
          next hraws =>
            cases h
            exact readCells_error_isNotCapacity href hraws
          · cases h

theorem binaryStage_fault_isNotCapacity {f : Int → Int → Int} {a b dst : Param} {c : FaultCause}
    (h : binaryStage f a b dst s = .fault c) : c.isNotCapacity := by
  cases ha : readParam s a with
  | error c' =>
    cases (binaryStage_fault_first ha).symm.trans h
    exact readParam_error_isNotCapacity href ha
  | ok va =>
    cases hb : readParam s b with
    | error c' =>
      cases (binaryStage_fault_second ha hb).symm.trans h
      exact readParam_error_isNotCapacity href hb
    | ok vb =>
      cases hd : writeAddr s 2 dst with
      | error c' =>
        cases (binaryStage_fault_target ha hb hd).symm.trans h
        exact (writeAddr_error hd).2 ▸ isNotCapacity_invalidWriteTarget 2
      | ok addr =>
        cases hw : memWrite s addr (f va vb) with
        | error c' =>
          cases (binaryStage_fault_write ha hb hd hw).symm.trans h
          exact memWrite_error_isNotCapacity href hw
        | ok t => simp [binaryStage, ha, hb, hd, hw, bind, Except.bind, pure, Except.pure,
            Stage.ofExcept] at h

theorem inpStage_fault_isNotCapacity {d : Int} {dst : Param} {c : FaultCause}
    (h : inpStage d dst s = .fault c) : c.isNotCapacity := by
  unfold inpStage at h
  split at h
  next hd =>
    cases h
    exact (writeAddr_error hd).2 ▸ isNotCapacity_invalidWriteTarget 0
  · split at h
    · cases h
      exact isNotCapacity_invalidAddress _
    · split at h
      · cases h
      next v t hacq =>
        have hr : t.realisation = Realisation.reference := by
          obtain ⟨_, _, _, ha⟩ | ⟨_, _, ha⟩ | ⟨_, _, ha⟩ := acquireInput_cases d s <;>
            cases ha.symm.trans hacq <;> exact href
        split at h
        next hw =>
          cases h
          exact memWrite_error_isNotCapacity hr hw
        · cases h

theorem jumpStage_fault_isNotCapacity {sense : Bool} {a b : Param} {c : FaultCause}
    (h : jumpStage sense a b s = .fault c) : c.isNotCapacity := by
  unfold jumpStage at h
  split at h
  next ha =>
    cases h
    exact readParam_error_isNotCapacity href ha
  · split at h
    · split at h
      next hb =>
        cases h
        exact readParam_error_isNotCapacity href hb
      · cases h
    · cases h

theorem outStage_fault_isNotCapacity {a : Param} {c : FaultCause} (h : outStage a s = .fault c) :
    c.isNotCapacity := by
  obtain ⟨c', ha, he⟩ | ⟨_, _, he⟩ := outStage_cases a s <;> cases he.symm.trans h
  exact readParam_error_isNotCapacity href ha

theorem arbStage_fault_isNotCapacity {a : Param} {c : FaultCause} (h : arbStage a s = .fault c) :
    c.isNotCapacity := by
  cases ha : readParam s a with
  | error c' =>
    cases (arbStage_of_read_error ha).symm.trans h
    exact readParam_error_isNotCapacity href ha
  | ok va => cases (arbStage_of_cellFits ha (href ▸ reference_cellFits _)).symm.trans h

/-- R205: an execute stage of the reference machine faults for another reason. -/
theorem execute_fault_isNotCapacity {d : Int} {i : Instr} {c : FaultCause}
    (h : execute d i s = .fault c) : c.isNotCapacity := by
  cases i with
  | add | mul | lt | eq => exact binaryStage_fault_isNotCapacity href h
  | inp => exact inpStage_fault_isNotCapacity href h
  | out => exact outStage_fault_isNotCapacity href h
  | jt | jf => exact jumpStage_fault_isNotCapacity href h
  | arb => exact arbStage_fault_isNotCapacity href h
  | hlt => cases h

/-- R205: a step of the reference machine takes a fault of another kind, or leaves the fault
record as it is. -/
theorem step_fault_isNotCapacity {t : State} (hr : s.status = .running) (h : step s = .next t) :
    (∃ c, FaultCause.isNotCapacity c ∧ t = s.takeFault c) ∨ t.fault = s.fault := by
  cases hf : fetch s with
  | error c =>
    rw [step_of_fetch_error hr hf] at h
    exact .inl ⟨c, fetch_error_isNotCapacity href hf, (Host.Outcome.next.inj h).symm⟩
  | ok i =>
    rw [step_eq_next_stepWith, stepWith_of_fetch hr hf] at h
    obtain rfl := Host.Outcome.next.inj h
    obtain ⟨c, he⟩ | ⟨_, _, _, _, he⟩ | ⟨_, he⟩ | ⟨npc, out, u, hc, he⟩ :=
      execute_cases (Config.producerAnswer s.draws) i s
    · exact .inl ⟨c, execute_fault_isNotCapacity href he, by rw [he, settle_fault]⟩
    · exact .inr (by rw [he, settle_hold])
    · exact .inr (by rw [he, settle_halted, State.halt_fault])
    · obtain ⟨_, hfault, _⟩ := hc.keeps
      exact .inr (by
        rw [he, settle_next (href ▸ reference_cellFits npc), State.setPc_fault, hfault])

end

/-- Settles O44: the fault record that a step of the reference machine sets is of another kind. -/
theorem referenceNeverExceedsCapacity : Obligations.ReferenceNeverExceedsCapacity := by
  intro s t rec href hr h hrec hs
  obtain ⟨c, hc, rfl⟩ | hkept := step_fault_isNotCapacity href hr h
  · obtain rfl := Option.some.inj hrec
    exact hc s.pc
  · cases (hrec.symm.trans hkept).trans hs

end Sys2Proof.Machine

/-! ## The host command port (47_run_control.md R170 to R182) -/

namespace Sys2Proof.Machine

section
variable {p : Port}

/-- R170: an idle port takes the command. -/
theorem Port.accept_of_idle (h : p.pending = none) (c : Command) :
    p.accept c = some (p.take c) := by
  simp [Port.accept, h]

theorem Port.take_memRead_ok {a v : Int} (h : Machine.memRead p.machine a = .ok v) :
    p.take (.memRead a) = (p, some (.value v)) := by
  simp [Port.take, h]

theorem Port.take_memRead_error {a : Int} {c : FaultCause}
    (h : Machine.memRead p.machine a = .error c) :
    p.take (.memRead a) = (p, some (.refused c)) := by
  simp [Port.take, h]

theorem Port.take_memWrite_ok {a v : Int} {t : State}
    (h : Machine.memWrite p.machine a v = .ok t) :
    p.take (.memWrite a v) = ({ p with machine := t }, some .ok) := by
  simp [Port.take, h]

theorem Port.take_memWrite_error {a v : Int} {c : FaultCause}
    (h : Machine.memWrite p.machine a v = .error c) :
    p.take (.memWrite a v) = (p, some (.refused c)) := by
  simp [Port.take, h]

/-- R177, R178, D19: a host access at a negative address is refused. -/
theorem Port.accept_negative (h : p.pending = none) {a : Int} (hneg : a < 0) (v : Int) :
    p.accept (.memRead a) = some (p, some (.refused (.invalidAddress a))) ∧
      p.accept (.memWrite a v) = some (p, some (.refused (.invalidAddress a))) := by
  rw [Port.accept_of_idle h, Port.accept_of_idle h, Port.take_memRead_error (memRead_of_neg hneg),
    Port.take_memWrite_error (memWrite_of_neg hneg v)]
  exact ⟨rfl, rfl⟩

end

/-- Settles O49: an idle port takes every command, and what it then does is `Port.take`. -/
theorem idlePortTakesCommands : Obligations.IdlePortTakesCommands := by
  intro p h
  have hidle := Port.accept_of_idle h
  refine ⟨fun c => ⟨_, hidle c⟩, fun d => hidle _, fun v => hidle _, fun a v hv => ?_,
    fun a c hc => ?_, fun a v t ht => ?_, fun a v c hc => ?_, hidle _, fun _ _ _ _ _ => hidle _,
    hidle _, hidle _, fun n => hidle _⟩
  · rw [hidle, Port.take_memRead_ok hv]
  · rw [hidle, Port.take_memRead_error hc]
  · rw [hidle, Port.take_memWrite_ok ht]
  · rw [hidle, Port.take_memWrite_error hc]

/-- Settles O50: the port's accesses are the machine's. -/
theorem hostMemoryAccess : Obligations.HostMemoryAccess := by
  refine fun p a v h => ⟨fun hneg => Port.accept_negative h hneg v, fun h0 ha => ?_,
    fun hs h0 ha hv => ?_⟩
  · rw [Port.accept_of_idle h, Port.take_memRead_ok (memRead_eq_ok h0 ha)]
  · refine ⟨p.machine.store a.toNat v, ?_, rfl,
      storesOnly_store (u := p.machine) hs rfl _ _ p.machine.pc⟩
    rw [Port.accept_of_idle h, Port.take_memWrite_ok (memWrite_eq_ok h0 ha hv)]

/-- Settles O51: a pending port looks at PUSH_INPUT only, and at that only when it is held. -/
theorem pendingPortTakesOnlyPushes : Obligations.PendingPortTakesOnlyPushes := by
  intro p k h
  refine ⟨fun c hc => ?_, fun v hheld => ?_, fun v hheld => ?_⟩
  · cases c with
    | pushInput v => exact absurd rfl (hc v)
    | construct | step | run | runUntilOutput | runN | memRead | memWrite | readState =>
      simp [Port.accept, h]
  · simp [Port.accept, h, hheld, State.pushInput]
  · simp [Port.accept, h, hheld]

/-- R43: a read above the first cell faults for another reason. -/
theorem memRead_ne_invalidAddress {s : State} {addr : Int} (h0 : 0 ≤ addr) (a : Int) :
    memRead s addr ≠ .error (.invalidAddress a) := by
  cases ha : s.realisation.addressable addr.toNat with
  | true => simp [memRead_eq_ok h0 ha]
  | false => simp [memRead_of_not_addressable h0 ha]

/-- R43: so do the reads of the cells after one. -/
theorem readCells_ne_invalidAddress {s : State} {addr : Int} (h0 : 0 ≤ addr) (n : Nat) (a : Int) :
    readCells s addr n ≠ .error (.invalidAddress a) := by
  induction n generalizing addr with
  | zero => simp [readCells]
  | succ n ih =>
    intro h
    unfold readCells at h
    split at h
    next hc =>
      cases h
      exact memRead_ne_invalidAddress h0 a hc
    · split at h
      next hc =>
        cases h
        exact ih (by omega) hc
      · cases h

/-- Settles O16: every access but that of parameter cells checks the sign, and these lie after
`pc`. -/
theorem negativeAddressesAreRefused : Obligations.NegativeAddressesAreRefused := by
  refine ⟨fun s a v hneg => ⟨memRead_of_neg hneg, memWrite_of_neg hneg v⟩,
    fun s hr hneg => raises_of_fetch_error hr (fetch_of_pc_neg hneg),
    fun s p addr he hneg => ⟨?_, fun i v => ⟨addr, writeAddr_of_effectiveAddr he i,
      memWrite_of_neg hneg v⟩⟩,
    fun s n a h0 => readCells_ne_invalidAddress (by omega) n a,
    fun p a v h hneg => Port.accept_negative h hneg v⟩
  rw [readParam_of_effectiveAddr he, memRead_of_neg hneg]

/-! ### The tests at the head of the loops (47_run_control.md R174, decision D14) -/

section
variable {s : State}

theorem poll_of_faulted (hs : s.status = .faulted) : poll s = .fault s.fault := by
  simp [poll, hs]

theorem poll_of_queued {v : Int} {rest : List Int} (hs : s.status ≠ .faulted)
    (hq : s.outq = v :: rest) : poll s = .value v (s.setOutq rest) := by
  cases hst : s.status with
  | faulted => exact absurd hst hs
  | halted | running => simp [poll, hst, hq]

theorem poll_of_halted (hs : s.status = .halted) (hq : s.outq = []) : poll s = .noValue := by
  simp [poll, hs, hq]

theorem poll_of_running (hs : s.status = .running) (hq : s.outq = []) : poll s = .again := by
  simp [poll, hs, hq]

end

/-- Settles O52: the iteration answers what its tests say. -/
theorem runUntilOutputTests : Obligations.RunUntilOutputTests := by
  refine fun d s => ⟨fun hs => ?_, fun v rest hs hq => ?_, fun hs hq => ?_, fun hs hq => ?_⟩
  · simp [Port.advance, poll_of_faulted hs]
  · simp [Port.advance, poll_of_queued hs hq, State.setOutq]
  · simp [Port.advance, poll_of_halted hs hq]
  · simp [Port.advance, poll_of_running hs hq]

/-! ### A command run to its reply (47_run_control.md R173 to R182, log 10) -/

/-- What holds of the pending port, and is kept by a tick that does not reply and by a push, holds
of the port whose tick replies. -/
theorem Port.serve_ends {P : Port → Prop} (htick : ∀ p q, P p → p.tick = (q, none) → P q)
    (hpush : ∀ p v, P p → P { p with machine := p.machine.pushInput v }) {fuel : Nat}
    {feed rest : List Int} {p q : Port} {r : Reply} (hp : P p)
    (h : Port.serve fuel feed p = some (r, q, rest)) : ∃ p', P p' ∧ p'.tick = (q, some r) := by
  induction fuel generalizing feed p with
  | zero => cases h
  | succ fuel ih =>
    obtain ⟨q', r', ht, he⟩ | ⟨q', p', feed', ht, hf, hrest⟩ := Port.serve_succ h
    · cases he
      exact ⟨p, hp, ht⟩
    · have hq' := htick p q' hp ht
      obtain ⟨_, v, _, rfl⟩ | ⟨_, _, rfl⟩ := Port.feed_some hf
      · exact ih (hpush q' v hq') hrest
      · exact ih hq' hrest

/-- The next state under the producer answers of log 4, which is the host's step's. -/
def State.stepped (s : State) : State := (stepWith (Config.producerAnswer s.draws) s).2

theorem step_eq_next_stepped (s : State) : step s = .next s.stepped := step_eq_next_stepWith s

/-- R173: a tick of RUN steps the machine, and it replies when that leaves the machine halted or
faulted. -/
theorem Port.tick_run_result {s : State} {q : Port} {reply : Option Reply}
    (h : Port.tick ⟨s, some .run⟩ = (q, reply)) :
    q.machine = s.stepped ∧
      ((reply = none ∧ q.pending = some .run) ∨
        (q.pending = none ∧ reply = some (.done q.machine.outq) ∧ q.machine.status = .halted) ∨
        (q.pending = none ∧ reply = some (.fault q.machine.fault) ∧
          q.machine.status = .faulted)) := by
  obtain ⟨o, t, hw, _, hk⟩ | ⟨t, hw, hk⟩ | ⟨rec, t, hw, hk⟩ := Port.tick_run s <;>
    cases hk.symm.trans h <;> rw [State.stepped, hw]
  · exact ⟨rfl, .inl ⟨rfl, rfl⟩⟩
  · exact ⟨rfl, .inr (.inl ⟨rfl, rfl, (stepWith_stop_status hw).1 rfl⟩)⟩
  · obtain ⟨_, _, _, hfault⟩ := outcomesTellTheState _ _ _ _ hw
    obtain ⟨hst, hrec⟩ := hfault rec rfl
    exact ⟨rfl, .inr (.inr ⟨rfl, by rw [hrec], hst⟩)⟩

/-- What a RUN has passed through when it replies: `P` of the machine is kept by every step and
every push, and the reply is a halt's or a fault's. -/
theorem Port.serve_run_ends {P : State → Prop} (hstep : ∀ d s, P s → P (stepWith d s).2)
    (hpush : ∀ s v, P s → P (s.pushInput v)) {fuel : Nat} {feed rest : List Int} {s : State}
    {q : Port} {r : Reply} (hs : P s)
    (h : Port.serve fuel feed ⟨s, some .run⟩ = some (r, q, rest)) :
    q.pending = none ∧ P q.machine ∧
      ((r = .done q.machine.outq ∧ q.machine.status = .halted) ∨
        (r = .fault q.machine.fault ∧ q.machine.status = .faulted)) := by
  have htick (p q : Port) (hp : p.pending = some .run ∧ P p.machine) (ht : p.tick = (q, none)) :
      q.pending = some .run ∧ P q.machine := by
    obtain ⟨u, k⟩ := p
    obtain ⟨rfl, hu⟩ := hp
    obtain ⟨hm, ⟨_, hq⟩ | ⟨_, hr, _⟩ | ⟨_, hr, _⟩⟩ := Port.tick_run_result ht
    · exact ⟨hq, hm ▸ hstep _ u hu⟩
    · cases hr
    · cases hr
  obtain ⟨⟨u, k⟩, ⟨rfl, hu⟩, ht⟩ := Port.serve_ends htick
    (fun p v hp => ⟨hp.1, hpush p.machine v hp.2⟩) ⟨rfl, hs⟩ h
  obtain ⟨hm, ⟨hr, _⟩ | ⟨hq, hr, hst⟩ | ⟨hq, hr, hst⟩⟩ := Port.tick_run_result ht
  · cases hr
  · exact ⟨hq, hm ▸ hstep _ u hu, .inl ⟨Option.some.inj hr, hst⟩⟩
  · exact ⟨hq, hm ▸ hstep _ u hu, .inr ⟨Option.some.inj hr, hst⟩⟩

/-- R27: a step leaves what was queued in front. -/
theorem stepWith_outq (d : Int) (s : State) : ∃ new, (stepWith d s).2.outq = s.outq ++ new := by
  obtain ⟨_, hw⟩ | ⟨_, hw⟩ | ⟨_, c, hw⟩ |
      ⟨i, _, _, ⟨_, _, _, _, hw⟩ | ⟨_, hw⟩ | ⟨_, out, u, hc, _, hw⟩⟩ := stepWith_cases d s <;>
    rw [hw]
  case inr.inr.inr.inr.inr =>
    obtain ⟨_, hq⟩ | ⟨_, v, _, _, _, hq⟩ := hc.outq_cases
    · exact ⟨[], by simp [hq]⟩
    · exact ⟨[v], by simp [hq]⟩
  all_goals exact ⟨[], (List.append_nil _).symm⟩

/-- Settles O53: what was queued stays in front of the queue that a halted RUN answers. -/
theorem runReturnsEveryOutput : Obligations.RunReturnsEveryOutput := by
  intro fuel feed rest s r q h
  have hstep (d : Int) (t : State) (ht : s.outq <+: t.outq) : s.outq <+: (stepWith d t).2.outq := by
    obtain ⟨new, hnew⟩ := stepWith_outq d t
    exact ht.trans (hnew ▸ ⟨new, rfl⟩)
  obtain ⟨hp, ⟨new, hnew⟩, ⟨hr, hst⟩ | hfault⟩ := Port.serve_run_ends
    (P := fun t => s.outq <+: t.outq) hstep (fun _ _ ht => ht) ⟨[], List.append_nil _⟩ h
  · exact ⟨hp, .inl ⟨new, by rw [hr, hnew], hnew.symm, hst⟩⟩
  · exact ⟨hp, .inr hfault⟩

/-- Settles O54: a halted machine that meets the invariant has no fault recorded. -/
theorem completedRunEndedWell : Obligations.CompletedRunEndedWell := by
  intro fuel feed rest outs s q hs h
  obtain ⟨_, hq, ⟨_, hst⟩ | ⟨hr, _⟩⟩ := Port.serve_run_ends (P := State.Inv)
    (fun d t ht => ht.stepWith d) (fun t v ht => ht.pushInput v) hs h
  · have hf := hq.faults.fault_eq_none (by simp [hst])
    simp [State.ended, State.endedWell, hst, hf]
  · cases hr

/-- What a RUN_N in progress has collected, from a machine that held `queued`: with what is left
in the output queue, it is what was queued and emitted, and it lacks as many values as are still
wanted. -/
def Collecting (queued vs : List Int) (n : Nat) (p : Port) : Prop :=
  ∃ k new, p.pending = some (.untilN k (vs ++ new)) ∧ new.length + k = n ∧
    queued <+: new ++ p.machine.outq

/-- R175: an iteration that does not reply goes on collecting. -/
theorem Collecting.tick {queued vs : List Int} {n : Nat} {p q : Port} (h : Collecting queued vs n p)
    (ht : p.tick = (q, none)) : Collecting queued vs n q := by
  obtain ⟨s, k⟩ := p
  obtain ⟨k, new, rfl, hlen, hpre⟩ := h
  cases k with
  | zero => cases ht
  | succ k =>
    unfold Port.tick Port.advance at ht
    dsimp only at ht
    split at ht <;> cases ht
    case h_2 v t hp =>
      obtain ⟨_, tail, hq, rfl⟩ := poll_value hp
      refine ⟨k, new ++ [v], by rw [List.append_assoc], by simp; omega, ?_⟩
      simpa [hq] using hpre
    case h_4 hp =>
      obtain ⟨emitted, he⟩ := stepWith_outq (Config.producerAnswer s.draws) s
      refine ⟨k + 1, new, rfl, hlen, hpre.trans ?_⟩
      rw [he, ← List.append_assoc]
      exact ⟨emitted, rfl⟩

/-- Settles O55: the iteration answers what its tests say, and every iteration that does not reply
goes on collecting. -/
theorem runNCollectsExactlyN : Obligations.RunNCollectsExactlyN := by
  refine ⟨fun d s n vs => ⟨fun hs => ?_, fun v rest hs hq => ?_, fun hs hq => ?_, fun hs hq => ?_,
    rfl⟩, fun fuel n vs feed rest s r q h => ?_, fun _ _ _ _ => rfl⟩
  · simp [Port.advance, poll_of_faulted hs]
  · simp [Port.advance, poll_of_queued hs hq, State.setOutq]
  · simp [Port.advance, poll_of_halted hs hq]
  · simp [Port.advance, poll_of_running hs hq]
  · obtain ⟨p, ⟨k, new, hpend, hlen, emitted, he⟩, ht⟩ := Port.serve_ends
      (P := Collecting s.outq vs n) (fun _ _ => Collecting.tick) (fun _ _ hp => hp)
      ⟨n, [], by rw [List.append_nil], Nat.zero_add n, [], List.append_nil _⟩ h
    obtain ⟨hq, ⟨hp, _⟩ | ⟨_, hp, _⟩ | ⟨rec, hp, hm, rfl⟩ | ⟨hp, hm, rfl⟩ | ⟨_, hp, _⟩ |
      ⟨vs', hp, hm, rfl⟩⟩ := Port.advance_reply_cases ht
    · cases hpend.symm.trans hp
    · cases hpend.symm.trans hp
    · obtain ⟨hst, rfl⟩ := poll_fault hp
      exact ⟨hq, .inr (.inr ⟨by rw [hm], hm ▸ hst⟩)⟩
    · exact ⟨hq, .inr (.inl ⟨rfl, hm ▸ poll_noValue hp⟩)⟩
    · cases hpend.symm.trans hp
    · cases hpend.symm.trans hp
      exact ⟨hq, .inl ⟨new, emitted, rfl, hlen, hm ▸ he⟩⟩

end Sys2Proof.Machine

/-! ## The output queue is written only (10_state.md R27) -/

namespace Sys2Proof.Machine

/-- The state with the outputs `vs` queued before its own. -/
def State.prependOutq (vs : List Int) (s : State) : State := s.setOutq (vs ++ s.outq)

/-- The stage with `f` done to its pending state. -/
def Stage.mapState (f : State → State) : Stage → Stage
  | .next npc out t => .next npc out (f t)
  | .halted t => .halted (f t)
  | .hold => .hold
  | .fault c => .fault c

/-- The acquired input with `f` done to its pending state. -/
def Acquired.mapState (f : State → State) : Acquired → Acquired
  | .value v t => .value v (f t)
  | .hold => .hold

section
variable (vs : List Int) (s : State)

@[simp] theorem readParam_prependOutq (p : Param) :
    readParam (s.prependOutq vs) p = readParam s p := rfl

@[simp] theorem writeAddr_prependOutq (i : Nat) (p : Param) :
    writeAddr (s.prependOutq vs) i p = writeAddr s i p := rfl

theorem fetch_prependOutq : fetch (s.prependOutq vs) = fetch s :=
  fetch_congr (s := s) (t := s.prependOutq vs) rfl rfl rfl rfl

/-- A write does not see the output queue. -/
theorem memWrite_prependOutq (addr v : Int) :
    memWrite (s.prependOutq vs) addr v = (memWrite s addr v).map (State.prependOutq vs) := by
  by_cases hneg : addr < 0
  · rw [memWrite_of_neg hneg, memWrite_of_neg hneg]
    rfl
  · have h0 : 0 ≤ addr := not_lt.1 hneg
    cases ha : s.realisation.addressable addr.toNat with
    | false =>
      rw [memWrite_of_not_addressable h0 ha,
        memWrite_of_not_addressable (s := s.prependOutq vs) h0 ha]
      rfl
    | true =>
      cases hv : s.realisation.cellFits v with
      | false =>
        rw [memWrite_of_not_cellFits h0 ha hv,
          memWrite_of_not_cellFits (s := s.prependOutq vs) h0 ha hv]
        rfl
      | true =>
        rw [memWrite_eq_ok h0 ha hv, memWrite_eq_ok (s := s.prependOutq vs) h0 ha hv]
        rfl

theorem binaryStage_prependOutq (f : Int → Int → Int) (a b dst : Param) :
    binaryStage f a b dst (s.prependOutq vs) =
      (binaryStage f a b dst s).mapState (State.prependOutq vs) := by
  simp only [binaryStage, readParam_prependOutq, writeAddr_prependOutq, memWrite_prependOutq, bind,
    Except.bind]
  cases readParam s a with
  | error c => rfl
  | ok va =>
    cases readParam s b with
    | error c => rfl
    | ok vb =>
      cases writeAddr s 2 dst with
      | error c => rfl
      | ok addr =>
        dsimp only
        cases memWrite s addr (f va vb) with
        | error c => rfl
        | ok t => rfl

/-- Nor does the acquisition of an input. -/
theorem acquireInput_prependOutq (d : Int) :
    acquireInput d (s.prependOutq vs) = (acquireInput d s).mapState (State.prependOutq vs) := by
  obtain ⟨v, rest, hq, ha⟩ | ⟨hq, hp, ha⟩ | ⟨hq, hp, ha⟩ := acquireInput_cases d s <;> rw [ha]
  · exact acquireInput_of_queued (s := s.prependOutq vs) hq
  · exact acquireInput_of_producer (s := s.prependOutq vs) hq hp
  · exact acquireInput_of_nothing (s := s.prependOutq vs) hq hp

theorem inpStage_prependOutq (d : Int) (dst : Param) :
    inpStage d dst (s.prependOutq vs) = (inpStage d dst s).mapState (State.prependOutq vs) := by
  cases hd : writeAddr s 0 dst with
  | error c =>
    rw [inpStage_of_target_error hd, inpStage_of_target_error (s := s.prependOutq vs) hd]
    rfl
  | ok addr =>
    by_cases hneg : addr < 0
    · rw [inpStage_of_negative_target hd hneg,
        inpStage_of_negative_target (s := s.prependOutq vs) hd hneg]
      rfl
    · simp only [inpStage, writeAddr_prependOutq, hd, if_neg hneg, acquireInput_prependOutq]
      cases acquireInput d s with
      | hold => rfl
      | value v t =>
        simp only [Acquired.mapState, memWrite_prependOutq]
        cases memWrite t addr v with
        | error c => rfl
        | ok u => rfl

theorem outStage_prependOutq (a : Param) :
    outStage a (s.prependOutq vs) = (outStage a s).mapState (State.prependOutq vs) := by
  simp only [outStage, readParam_prependOutq]
  cases readParam s a with
  | error c => rfl
  | ok va => simp [Stage.mapState, State.prependOutq, State.emit, State.setOutq]

theorem jumpStage_prependOutq (sense : Bool) (a b : Param) :
    jumpStage sense a b (s.prependOutq vs) =
      (jumpStage sense a b s).mapState (State.prependOutq vs) := by
  simp only [jumpStage, readParam_prependOutq]
  cases readParam s a with
  | error c => rfl
  | ok va =>
    dsimp only
    split
    · cases readParam s b with
      | error c => rfl
      | ok vb => rfl
    · rfl

theorem arbStage_prependOutq (a : Param) :
    arbStage a (s.prependOutq vs) = (arbStage a s).mapState (State.prependOutq vs) := by
  cases ha : readParam s a with
  | error c =>
    rw [arbStage_of_read_error ha, arbStage_of_read_error (s := s.prependOutq vs) ha]
    rfl
  | ok va =>
    cases hf : s.realisation.cellFits (s.rb + va) with
    | true =>
      rw [arbStage_of_cellFits ha hf, arbStage_of_cellFits (s := s.prependOutq vs) ha hf]
      rfl
    | false =>
      rw [arbStage_of_not_cellFits ha hf, arbStage_of_not_cellFits (s := s.prependOutq vs) ha hf]
      rfl

/-- An execute stage does the same whatever is queued before. -/
theorem execute_prependOutq (d : Int) (i : Instr) :
    execute d i (s.prependOutq vs) = (execute d i s).mapState (State.prependOutq vs) := by
  cases i with
  | add a b dst | mul a b dst | lt a b dst | eq a b dst =>
    exact binaryStage_prependOutq vs s _ a b dst
  | inp dst => exact inpStage_prependOutq vs s d dst
  | out a => exact outStage_prependOutq vs s a
  | jt a b | jf a b => exact jumpStage_prependOutq vs s _ a b
  | arb a => exact arbStage_prependOutq vs s a
  | hlt => rfl

/-- So does the commit. -/
theorem settle_prependOutq (r : Stage) :
    settle (s.prependOutq vs) (r.mapState (State.prependOutq vs)) =
      ((settle s r).1, (settle s r).2.prependOutq vs) := by
  cases r with
  | next npc out t =>
    cases hn : s.realisation.cellFits npc with
    | true =>
      rw [settle_next hn, Stage.mapState, settle_next (s := s.prependOutq vs) hn]
      rfl
    | false =>
      rw [settle_next_capacity hn, Stage.mapState, settle_next_capacity (s := s.prependOutq vs) hn]
      rfl
  | halted t => rfl
  | hold => rfl
  | fault c => rfl

/-- A step does the same whatever is queued before. -/
theorem stepWith_prependOutq (d : Int) :
    stepWith d (s.prependOutq vs) = ((stepWith d s).1, (stepWith d s).2.prependOutq vs) := by
  cases hs : s.status with
  | halted => rw [stepWith_of_halted hs, stepWith_of_halted (s := s.prependOutq vs) hs]
  | faulted =>
    rw [stepWith_of_faulted hs, stepWith_of_faulted (s := s.prependOutq vs) hs]
    rfl
  | running =>
    cases hf : fetch s with
    | error c =>
      simp only [stepWith, hs, hf, (fetch_prependOutq vs s).trans hf,
        show (s.prependOutq vs).status = .running from hs]
      exact settle_prependOutq vs s (.fault c)
    | ok i =>
      rw [stepWith_of_fetch hs hf,
        stepWith_of_fetch (s := s.prependOutq vs) hs ((fetch_prependOutq vs s).trans hf),
        execute_prependOutq, settle_prependOutq]

/-- A step from any output queue is the step from the empty one, with that queue before its
outputs. -/
theorem stepWith_setOutq (d : Int) :
    stepWith d (s.setOutq vs) =
      ((stepWith d (s.setOutq [])).1, (stepWith d (s.setOutq [])).2.prependOutq vs) := by
  have h : s.setOutq vs = (s.setOutq []).prependOutq vs :=
    congrArg s.setOutq (List.append_nil vs).symm
  rw [h, stepWith_prependOutq]

/-- A step from a state's own output queue, in the same terms. -/
theorem stepWith_eq_prependOutq (d : Int) :
    stepWith d s =
      ((stepWith d (s.setOutq [])).1, (stepWith d (s.setOutq [])).2.prependOutq s.outq) :=
  stepWith_setOutq s.outq s d

end

/-- Settles O48: both steps are the step from the empty queue, whose outputs are the new ones. -/
theorem outputQueueIsInvisible : Obligations.OutputQueueIsInvisible := by
  intro d s o
  obtain ⟨ho₁, ho₂⟩ := Prod.ext_iff.1 (stepWith_setOutq o s d)
  obtain ⟨hs₁, hs₂⟩ := Prod.ext_iff.1 (stepWith_eq_prependOutq s d)
  exact ⟨ho₁.trans hs₁.symm,
    (congrArg (State.setOutq · []) ho₂).trans (congrArg (State.setOutq · []) hs₂).symm,
    _, congrArg State.outq hs₂, congrArg State.outq ho₂⟩

/-! ### The hold of a run command (40_dispatch_and_step.md R99, 47_run_control.md R180) -/

section
variable {s : State}

/-- A hold does not depend on what is queued for output. -/
theorem waitsForInput_setOutq (vs : List Int) (s : State) :
    (s.setOutq vs).waitsForInput = s.waitsForInput := by
  rw [State.waitsForInput, State.waitsForInput, stepWith_setOutq, stepWith_eq_prependOutq s]

/-- R99: a machine that waits for input is held under any producer answer. -/
theorem stepWith_of_waitsForInput (h : s.waitsForInput = true) (d : Int) :
    stepWith d s = (.held, s) := by
  have hheld : (stepWith 0 s).1 = .held := beq_iff_eq.1 h
  obtain ⟨_, hw⟩ | ⟨_, hw⟩ | ⟨_, c, hw⟩ |
      ⟨i, hr, hf, ⟨dst, rfl, hq, hp, hw⟩ | ⟨_, hw⟩ | ⟨_, out, u, _, _, hw⟩⟩ := stepWith_cases 0 s
  case inr.inr.inr.inl =>
    have hsame : execute d (.inp dst) s = execute 0 (.inp dst) s := by
      simp only [execute, inpStage, acquireInput_of_nothing hq hp]
    rw [← hw, stepWith_of_fetch hr hf, stepWith_of_fetch hr hf, hsame]
  all_goals
    rw [hw] at hheld
    cases hheld

theorem Port.held_untilOutput :
    (Port.mk s (some .untilOutput)).held = true ↔ poll s = .again ∧ s.waitsForInput = true := by
  simp [Port.held]

theorem Port.feed_of_held {p : Port} (h : p.held = true) (v : Int) (rest : List Int) :
    p.feed (v :: rest) = some ({ p with machine := p.machine.pushInput v }, rest) := by
  simp [Port.feed, h]

theorem Port.feed_of_not_held {p : Port} (h : ¬ p.held = true) (feed : List Int) :
    p.feed feed = some (p, feed) := by
  simp [Port.feed, h]

end

theorem stepped_eq_prependOutq (s : State) :
    s.stepped = (s.setOutq []).stepped.prependOutq s.outq :=
  congrArg Prod.snd (stepWith_eq_prependOutq s (Config.producerAnswer s.draws))

/-- R173: a tick of RUN that does not reply was a step, or a hold, of a machine that runs on. -/
theorem Port.tick_run_goes_on {s : State} {q : Port} (h : Port.tick ⟨s, some .run⟩ = (q, none)) :
    q = ⟨s.stepped, some .run⟩ ∧ s.status = .running ∧ s.stepped.status = .running := by
  obtain ⟨o, t, hw, ho, hk⟩ | ⟨_, _, hk⟩ | ⟨_, _, _, hk⟩ := Port.tick_run s <;>
    cases hk.symm.trans h
  obtain ⟨hstepped, _, hheld, _⟩ := outcomesTellTheState _ s t o hw
  obtain rfl : s.stepped = t := congrArg Prod.snd hw
  obtain ⟨out, hout⟩ | hout := ho
  · obtain ⟨hr, hst, _⟩ := hstepped out hout
    exact ⟨rfl, hr, hst⟩
  · obtain ⟨hself, hr, _⟩ := hheld hout
    exact ⟨rfl, hr, (congrArg State.status hself).trans hr⟩

/-! ### RUN_UNTIL_OUTPUT issued until NoValue (47_run_control.md R184) -/

section
variable {fuel calls : Nat} {feed rest : List Int} {p q q' : Port} {s : State}

theorem Port.serve_of_reply {r : Reply} (ht : p.tick = (q, some r)) :
    Port.serve (fuel + 1) feed p = some (r, q, feed) := by
  simp [Port.serve, ht]

theorem Port.serve_of_tick (ht : p.tick = (q, none)) (hf : q.feed feed = some (q', rest)) :
    Port.serve (fuel + 1) feed p = Port.serve fuel rest q' := by
  simp [Port.serve, ht, hf]

/-- A command that replies within some fuel replies the same within more. -/
theorem Port.serve_mono {r : Reply × Port × List Int} {fuel' : Nat} (hle : fuel ≤ fuel')
    (h : Port.serve fuel feed p = some r) : Port.serve fuel' feed p = some r := by
  induction fuel generalizing feed p fuel' with
  | zero => cases h
  | succ fuel ih =>
    obtain ⟨fuel', rfl⟩ := Nat.exists_eq_succ_of_ne_zero (by omega : fuel' ≠ 0)
    obtain ⟨q, rep, ht, rfl⟩ | ⟨q, q', rest, ht, hf, hrest⟩ := Port.serve_succ h
    · exact Port.serve_of_reply ht
    · exact (Port.serve_of_tick ht hf).trans (ih (by omega) hrest)

theorem collectOutputs_of_value {v : Int} {vs left : List Int} {t : State}
    (h : Port.serve fuel feed ⟨s, some .untilOutput⟩ = some (.value v, q, rest))
    (hrest : collectOutputs calls fuel rest q.machine = some (vs, t, left)) :
    collectOutputs (calls + 1) fuel feed s = some (v :: vs, t, left) := by
  simp [collectOutputs, h, hrest]

theorem collectOutputs_of_noValue
    (h : Port.serve fuel feed ⟨s, some .untilOutput⟩ = some (.noValue, q, rest)) :
    collectOutputs (calls + 1) fuel feed s = some ([], q.machine, rest) := by
  simp [collectOutputs, h]

/-- One command of the sequence: it returned a value and the others follow, or it ended the
sequence. -/
theorem collectOutputs_succ {r : List Int × State × List Int}
    (h : collectOutputs (calls + 1) fuel feed s = some r) :
    (∃ v q rest vs t left, Port.serve fuel feed ⟨s, some .untilOutput⟩ = some (.value v, q, rest) ∧
        collectOutputs calls fuel rest q.machine = some (vs, t, left) ∧ r = (v :: vs, t, left)) ∨
      ∃ q rest, Port.serve fuel feed ⟨s, some .untilOutput⟩ = some (.noValue, q, rest) ∧
        r = ([], q.machine, rest) := by
  unfold collectOutputs at h
  split at h
  next v q rest hv =>
    split at h
    next vs t left hrest =>
      exact .inl ⟨v, q, rest, vs, t, left, hv, hrest, (Option.some.inj h).symm⟩
    · cases h
  next q rest hn => exact .inr ⟨q, rest, hn, (Option.some.inj h).symm⟩
  · cases h

/-- A sequence that ends within some fuel ends the same within more. -/
theorem collectOutputs_mono {r : List Int × State × List Int} {fuel' : Nat} (hle : fuel ≤ fuel')
    (h : collectOutputs calls fuel feed s = some r) :
    collectOutputs calls fuel' feed s = some r := by
  induction calls generalizing feed s r with
  | zero => cases h
  | succ calls ih =>
    obtain ⟨v, q, rest, vs, t, left, hv, hrest, rfl⟩ | ⟨q, rest, hn, rfl⟩ := collectOutputs_succ h
    · exact collectOutputs_of_value (Port.serve_mono hle hv) (ih hrest)
    · exact collectOutputs_of_noValue (Port.serve_mono hle hn)

end

/-- RUN_UNTIL_OUTPUT issued until NoValue ends with `r`, given calls and fuel enough. -/
def Collects (feed : List Int) (s : State) (r : List Int × State × List Int) : Prop :=
  ∃ calls fuel, collectOutputs calls fuel feed s = some r

section
variable {feed rest vs left : List Int} {s t : State}

/-- R174: nothing is returned by a halted machine with nothing queued. -/
theorem Collects.nil (hs : s.status = .halted) (hq : s.outq = []) :
    Collects feed s ([], s, feed) := by
  have ht : Port.tick ⟨s, some .untilOutput⟩ = (⟨s, none⟩, some .noValue) := by
    simp [Port.tick, Port.advance, poll_of_halted hs hq]
  exact ⟨1, 1, collectOutputs_of_noValue (Port.serve_of_reply ht)⟩

/-- R174: a queued output is returned first. -/
theorem Collects.pop {v : Int} (hs : s.status ≠ .faulted) (hq : s.outq = v :: rest)
    (h : Collects feed (s.setOutq rest) (vs, t, left)) : Collects feed s (v :: vs, t, left) := by
  obtain ⟨calls, fuel, h⟩ := h
  have ht : Port.tick ⟨s, some .untilOutput⟩ = (⟨s.setOutq rest, none⟩, some (.value v)) := by
    simp [Port.tick, Port.advance, poll_of_queued hs hq]
  exact ⟨calls + 1, fuel + 1, collectOutputs_of_value (Port.serve_of_reply ht)
    (collectOutputs_mono fuel.le_succ h)⟩

/-- R174: so are all that are queued, in order. -/
theorem Collects.drain (hs : s.status ≠ .faulted)
    (h : Collects feed (s.setOutq []) (vs, t, left)) : Collects feed s (s.outq ++ vs, t, left) := by
  induction hq : s.outq generalizing s with
  | nil =>
    have hself : s.setOutq [] = s := congrArg s.setOutq hq.symm
    rwa [hself] at h
  | cons v rest ih => exact Collects.pop hs hq (ih (s := s.setOutq rest) hs h rfl)

/-- R174: with nothing queued, the command steps a running machine, and the host feeds it if it is
then held. -/
theorem Collects.step {r : List Int × State × List Int} (hr : s.status = .running)
    (hq : s.outq = [])
    (hf : Port.feed ⟨s.stepped, some .untilOutput⟩ feed = some (⟨t, some .untilOutput⟩, rest))
    (h : Collects rest t r) : Collects feed s r := by
  obtain ⟨calls, fuel, h⟩ := h
  have ht : Port.tick ⟨s, some .untilOutput⟩ = (⟨s.stepped, some .untilOutput⟩, none) := by
    simp [Port.tick, Port.advance, poll_of_running hr hq, State.stepped]
  have hserve := Port.serve_of_tick (fuel := fuel) ht hf
  cases calls with
  | zero => cases h
  | succ calls =>
    refine ⟨calls + 1, fuel + 1, ?_⟩
    obtain ⟨v, q, feed', vs, u, left, hv, hrest, rfl⟩ | ⟨q, feed', hn, rfl⟩ := collectOutputs_succ h
    · exact collectOutputs_of_value (hserve.trans hv) (collectOutputs_mono fuel.le_succ hrest)
    · exact collectOutputs_of_noValue (hserve.trans hn)

/-- The next command is held where the RUN was, and takes the value that was pushed there. -/
theorem Collects.of_run_feed {r : List Int × State × List Int} {u : State}
    (hr : s.status = .running)
    (hf : Port.feed ⟨s, some .run⟩ feed = some (⟨u, some .run⟩, rest))
    (h : Collects rest (u.setOutq []) r) : Collects feed (s.setOutq []) r := by
  obtain ⟨hheld, v, rfl, hu⟩ | ⟨_, rfl, hu⟩ := Port.feed_some hf
  · cases hu
    have hwait : (s.setOutq []).waitsForInput = true := (waitsForInput_setOutq [] s).trans hheld
    have hpoll : poll (s.setOutq []) = .again := poll_of_running (s := s.setOutq []) hr rfl
    refine Collects.step (s := s.setOutq []) hr rfl ?_ h
    rw [State.stepped, stepWith_of_waitsForInput hwait]
    exact Port.feed_of_held (Port.held_untilOutput.2 ⟨hpoll, hwait⟩) v rest
  · cases hu
    exact h

/-- R173, R174: where a RUN makes a step and goes on, the commands until NoValue make the same step,
return what it emitted, and go on. -/
theorem Collects.of_run_step {u : State} (hr : s.status = .running)
    (hst : s.stepped.status = .running)
    (hf : Port.feed ⟨s.stepped, some .run⟩ feed = some (⟨u, some .run⟩, rest))
    (h : Collects rest (u.setOutq []) (vs, t, left)) :
    Collects feed (s.setOutq []) ((s.setOutq []).stepped.outq ++ vs, t, left) := by
  rw [stepped_eq_prependOutq] at hst hf
  generalize hw : (s.setOutq []).stepped = w at hst hf ⊢
  have hrun : w.status = .running := hst
  by_cases hheld : (Port.mk w (some .untilOutput)).held = true
  · obtain ⟨hpoll, hwait⟩ := Port.held_untilOutput.1 hheld
    obtain ⟨_, hnil⟩ := poll_again hpoll
    obtain ⟨_, v, rfl, hu⟩ | ⟨hnot, _, _⟩ := Port.feed_some hf
    · cases hu
      have hpushed : ((w.prependOutq s.outq).pushInput v).setOutq [] = w.pushInput v :=
        congrArg (State.setOutq (w.pushInput v)) hnil.symm
      rw [hpushed] at h
      rw [hnil, List.nil_append]
      exact Collects.step (s := s.setOutq []) hr rfl (hw ▸ Port.feed_of_held hheld v rest) h
    · cases ((waitsForInput_setOutq _ w).trans hwait).symm.trans hnot
  · exact Collects.step (s := s.setOutq []) hr rfl (hw ▸ Port.feed_of_not_held hheld feed)
      (Collects.drain (by simp [hrun])
        (Collects.of_run_feed (s := w.prependOutq s.outq) hst hf h))

/-- R173, R174: where a RUN's step leaves the machine halted, the commands until NoValue make the
same step and return what it emitted. -/
theorem Collects.of_run_halt (hst : s.stepped.status = .halted) (hq : s.outq = []) :
    Collects feed s (s.stepped.outq, s.stepped.setOutq [], feed) := by
  generalize hw : s.stepped = w at hst ⊢
  have hdrain : Collects feed w (w.outq ++ [], w.setOutq [], feed) :=
    Collects.drain (by simp [hst]) (Collects.nil (s := w.setOutq []) hst rfl)
  rw [List.append_nil] at hdrain
  cases hs : s.status with
  | running =>
    have hheld : ¬ (Port.mk w (some .untilOutput)).held = true := fun h => by
      obtain ⟨hrun, _⟩ := poll_again (Port.held_untilOutput.1 h).1
      cases hst.symm.trans hrun
    exact Collects.step hs hq (hw ▸ Port.feed_of_not_held hheld feed) hdrain
  | halted =>
    rw [State.stepped, stepWith_of_halted hs] at hw
    exact hw ▸ hdrain
  | faulted =>
    rw [State.stepped, stepWith_of_faulted hs] at hw
    cases (hw ▸ hs : w.status = .faulted).symm.trans hst

end

/-- R184: a RUN that replies Done starts on a machine that is not faulted, and emits what the
commands until NoValue return from the same machine with nothing queued. -/
theorem collects_of_serve_run {fuel : Nat} {feed rest outs : List Int} {s : State} {q : Port}
    (h : Port.serve fuel feed ⟨s, some .run⟩ = some (.done outs, q, rest)) :
    s.status ≠ .faulted ∧ ∃ new, outs = s.outq ++ new ∧
      Collects feed (s.setOutq []) (new, q.machine.setOutq [], rest) := by
  induction fuel generalizing feed s with
  | zero => cases h
  | succ fuel ih =>
    have hstep := stepped_eq_prependOutq s
    obtain ⟨q₁, rep, htick, he⟩ | ⟨q₁, q₂, feed', htick, hfeed, hserve⟩ := Port.serve_succ h
    · cases he
      obtain ⟨hm, ⟨hr, _⟩ | ⟨_, hr, hst⟩ | ⟨_, hr, _⟩⟩ := Port.tick_run_result htick
      · cases hr
      · cases hr
        rw [hm] at hst ⊢
        refine ⟨fun hs => ?_, (s.setOutq []).stepped.outq, congrArg State.outq hstep, ?_⟩
        · rw [State.stepped, stepWith_of_faulted hs] at hst
          cases hst.symm.trans hs
        · rw [hstep] at hst ⊢
          exact Collects.of_run_halt (s := s.setOutq []) hst rfl
      · cases hr
    · obtain ⟨rfl, hr, hst⟩ := Port.tick_run_goes_on htick
      obtain ⟨u, rfl, hu⟩ : ∃ u, q₂ = ⟨u, some .run⟩ ∧ u.outq = s.stepped.outq := by
        obtain ⟨_, _, _, rfl⟩ | ⟨_, _, rfl⟩ := Port.feed_some hfeed
        · exact ⟨_, rfl, rfl⟩
        · exact ⟨_, rfl, rfl⟩
      obtain ⟨_, new, rfl, hc⟩ := ih hserve
      refine ⟨by simp [hr], _, ?_, Collects.of_run_step hr hst hfeed hc⟩
      rw [hu, hstep, ← List.append_assoc]
      rfl

/-- Settles O57: the commands until NoValue return what is queued already, and then what the RUN
emits. -/
theorem drivingStylesAgree : Obligations.DrivingStylesAgree := by
  intro fuel feed rest outs s q h
  obtain ⟨_, _, ⟨hr, _⟩ | ⟨hr, _⟩⟩ := Port.serve_run_ends (P := fun _ => True)
    (fun _ _ _ => trivial) (fun _ _ _ => trivial) trivial h
  · obtain ⟨hs, new, rfl, hc⟩ := collects_of_serve_run h
    exact ⟨(Reply.done.inj hr).symm, hc.drain hs⟩
  · cases hr

end Sys2Proof.Machine
